-- ==== Sys2Proof/Word.lean ====
section
/-! DEFINITION. The one data width of CODEC-CORE: the byte (20_memory.md R30, R35). Lengths, positions and alphabet
indices are plain natural numbers: no rule adds, shifts or masks them as words, and no stored length can wrap (00_scope.md R5, R7). -/

namespace Sys2Proof

/-- A byte: an unsigned 8-bit value, bit 7 most significant (00_scope.md R7). -/
abbrev Byte := BitVec 8

end Sys2Proof
end

