-- ==== Sys2Proof/Config.lean ====
section
/-! DEFINITION. What an implementation fixes (00_scope.md R5, the OPEN parameters) and the one free value the spec leaves open
(70_reset_and_hazards.md R164, 93_implementation_defined.md U6). -/

namespace Sys2Proof

/-- The OPEN parameters of 00_scope.md R5. They are plain data that State carries and no step changes, so that a
statement about every state is a statement about every configuration (log entry 1). -/
structure Params where
  /-- `SRC_CAP`, the capacity of the source buffer in bytes. -/
  srcCap : Nat
  /-- `DST_CAP`, the capacity of the destination buffer in bytes. -/
  dstCap : Nat
  /-- `LEN_W`, the width in bits of `SRC_LEN`, `DST_LEN`, `ERR_POS`. -/
  lenW : Nat
deriving DecidableEq, Repr

/-- The configuration of the programs of 95_test_vectors.md section 3 (DESIGN CHOICE, log entry 1: the spec leaves the
three values open; this one serves State.reset alone). -/
def Params.ofPrograms : Params where
  srcCap := 128
  dstCap := 264
  lenW := 9

/-- The FREE VALUE of the model (log entry 3): the byte that a source cell no host has written since reset physically
holds, by the epoch of State and the cell's index. "the hardware uses whatever the cell physically holds" (R164). It has
no body: nothing can evaluate it, so what is proved holds for every value of it. -/
opaque Config.unwrittenByte : Nat → Nat → Byte

end Sys2Proof
end

