-- ==== Sys2Proof/Machine/Padding.lean ====
section
/-! DEFINITION. The padding_generator unit and the constants of the codecs (40_alphabet_padding.md section 3, 00_scope.md R5, R6). -/

namespace Sys2Proof.Machine

/-- The three codecs. -/
inductive Codec where
  | base16
  | base32
  | base64
deriving DecidableEq, Repr

/-- `Raw(codec)`: bytes per group (R79). -/
def rawCount : Codec → Nat
  | .base16 => 1
  | .base32 => 5
  | .base64 => 3

/-- `Syms(codec)`: symbols per group (R79). -/
def symCount : Codec → Nat
  | .base16 => 2
  | .base32 => 8
  | .base64 => 4

/-- `Bits(codec)`: bits per symbol (R79). -/
def symBits : Codec → Nat
  | .base16 => 4
  | .base32 => 5
  | .base64 => 6

/-- `ceil(a/b)` for `b > 0` (00_scope.md R7). -/
def ceilDiv (a b : Nat) : Nat := (a + b - 1) / b

/-- `DataSyms(codec, r) = ceil(8*r / Bits(codec))` (R80). -/
def dataSyms (c : Codec) (r : Nat) : Nat := ceilDiv (8 * r) (symBits c)

/-- `PadCount(codec, r) = Syms(codec) - DataSyms(codec, r)` (R80). -/
def padCount (c : Codec) (r : Nat) : Nat := symCount c - dataSyms c r

/-- `IsData(codec, j, r)`: the symbol's first bit lies in a real byte of the group (R81). -/
def isData (c : Codec) (j r : Nat) : Bool := j * symBits c / 8 < r

/-- `BytesFrom(codec, v)`: whole bytes determined by the first `v` symbols of a window (R82). -/
def bytesFrom (c : Codec) (v : Nat) : Nat := v * symBits c / 8

/-- `WRAP_GROUPS`: base64 groups per output line (00_scope.md R5, 90_conflicts.md C4). -/
def wrapGroups : Nat := 19

/-- `LINE_BREAK`: the bytes of one base64 line break, CR LF (00_scope.md R5, 43_base64.md R123). -/
def lineBreak : List Byte := [0x0D, 0x0A]

/-- The strip set of `B64DEC`: tab, newline, carriage return, space (43_base64.md R126). -/
def isStripped (c : Byte) : Bool := c == 0x09 || c == 0x0A || c == 0x0D || c == 0x20

/-- `OutMax(n)`, the longest output of any operation on at most `n` bytes (00_scope.md R5). -/
def outMax (n : Nat) : Nat :=
  max (2 * n) (max (8 * ceilDiv n 5)
    (4 * ceilDiv n 3 + lineBreak.length * ((ceilDiv n 3 - 1) / wrapGroups)))

end Sys2Proof.Machine
end

