-- ==== Sys2Proof/Syntax.lean ====
section
/-! DEFINITION. The six operations (30_encoding.md R52), and the moves of the two agents beside the core: the host's
accesses to the named ports and the reset input (00_scope.md R9, 70_reset_and_hazards.md R168, R170). -/

namespace Sys2Proof

/-- The instruction set: one constructor per row of spec/opcode_table.json (30_encoding.md R52). The flags are the
booleans of the source's signatures (R51, R55). -/
inductive Instr where
  /-- `B16ENC`, 41_base16.md R90. -/
  | b16enc
  /-- `B16DEC`, 41_base16.md R92. -/
  | b16dec
  /-- `B32ENC`, 42_base32.md R100. -/
  | b32enc
  /-- `B32DEC`, 42_base32.md R104. -/
  | b32dec
  /-- `B64ENC`, 43_base64.md R120: `CMD[3]`, `CMD[4]`, `CMD[5]`. -/
  | b64enc (urlSafe noPadding wrap : Bool)
  /-- `B64DEC`, 43_base64.md R125: `CMD[3]`. -/
  | b64dec (urlSafe : Bool)
deriving DecidableEq, Repr

/-- Why a command byte selects no operation: the four groups of 30_encoding.md R56. -/
inductive Illegal where
  /-- `CMD[7:6] != 00`. -/
  | reservedBits
  /-- `CODEC = 11`. -/
  | reservedCodec
  /-- `URL_SAFE`, `NO_PADDING` or `WRAP` set with base16 or base32. -/
  | flagWithoutBase64
  /-- `NO_PADDING` or `WRAP` set with `B64DEC`. -/
  | encodeFlagWithDecode
deriving DecidableEq, Repr

/-- What a command byte decodes to: `Decode(c)` of 30_encoding.md R53 is total. -/
inductive Decoded where
  | legal (i : Instr)
  | illegal (why : Illegal)
deriving DecidableEq, Repr

/-- The named ports a host reaches: the five registers whole, and one cell of a buffer (20_memory.md R30, R31, R33). -/
inductive Port where
  | cmd
  | srcLen
  | dstLen
  | status
  | errPos
  | src (index : Nat)
  | dst (index : Nat)
deriving DecidableEq, Repr

/-- One indivisible access of the host (20_memory.md R39). Writes carry a whole register or one byte; there is no partial
register write (20_memory.md R33, 93_implementation_defined.md U9). -/
inductive HostMove where
  /-- A write of `CMD`: the launch event when accepted (70_reset_and_hazards.md R163). -/
  | writeCmd (c : Byte)
  | writeSrcLen (n : Nat)
  | writeSrc (index : Nat) (b : Byte)
  /-- The four writes of host read-only state, dropped at all times (70_reset_and_hazards.md R168). -/
  | writeDstLen (n : Nat)
  | writeStatus (b : Byte)
  | writeErrPos (n : Nat)
  | writeDst (index : Nat) (b : Byte)
  | read (p : Port)
deriving DecidableEq, Repr

/-- One turn of the interleaving of 20_memory.md R41: the core's (it completes the operation in flight, if there is one),
the host's, or the reset input's. -/
inductive Turn where
  | core
  | host (m : HostMove)
  | reset
deriving DecidableEq, Repr

end Sys2Proof
end

