-- ==== Sys2Proof/WellFormed.lean ====
section
/-! DEFINITION. Well-formedness: of a configuration (00_scope.md R5), of a host move (93_implementation_defined.md U8, U9),
and of an instruction. -/

namespace Sys2Proof

/-- The constraints of 00_scope.md R5: a model refuses a configuration that breaks one (93_implementation_defined.md U14). -/
abbrev Params.WF (p : Params) : Prop :=
  1 ≤ p.srcCap ∧ Machine.outMax p.srcCap ≤ p.dstCap ∧ p.dstCap < 2 ^ p.lenW ∧ p.srcCap < 2 ^ p.lenW

/-- A length a whole-register access can carry: `LEN_W` bits (10_state.md R13, 20_memory.md R33). -/
abbrev Params.fitsLen (p : Params) (n : Nat) : Prop := n < 2 ^ p.lenW

/-- A port that exists: an index reaches a cell only below the capacity (20_memory.md R31). -/
abbrev Port.WF (p : Params) : Port → Prop
  | .src k => k < p.srcCap
  | .dst k => k < p.dstCap
  | .cmd | .srcLen | .dstLen | .status | .errPos => True

/-- A host move the model has: it reaches an existing cell and writes a value its register can hold. -/
abbrev HostMove.WF (p : Params) : HostMove → Prop
  | .writeSrc k _ => k < p.srcCap
  | .writeDst k _ => k < p.dstCap
  | .writeSrcLen n | .writeDstLen n | .writeErrPos n => p.fitsLen n
  | .read q => q.WF p
  | .writeCmd _ | .writeStatus _ => True

/-- Every term of Instr is well formed: its only operands are one-bit flags, each at both its values (30_encoding.md
R51), and the flags an operation does not take cannot be written in its constructor (R55, R56). -/
abbrev Instr.WF : Instr → Prop
  | .b16enc | .b16dec | .b32enc | .b32dec | .b64enc _ _ _ | .b64dec _ => True

end Sys2Proof
end

