-- ==== Sys2Proof/Decode.lean ====
section
/-! DEFINITION. The command word: `Decode` (30_encoding.md R53), total over the 256 byte values and rejecting by name
(R56), the encoder written from the same table (R50, R52, R62), and the assembler text of a launch (R62). -/

namespace Sys2Proof

/-- `i` when no flag bit `CMD[5:3]` is set: the base16 and base32 rows of R53 read no flag (R55). -/
def unflagged (c : Byte) (i : Instr) : Decoded :=
  if c.extractLsb 5 3 = 0#3 then .legal i else .illegal .flagWithoutBase64

/-- `Decode(c)` (R53): `CMD[7:6]` first, then `CODEC = CMD[2:1]` and `DIR = CMD[0]` (R50). -/
def decode (c : Byte) : Decoded :=
  if c.extractLsb 7 6 ≠ 0#2 then .illegal .reservedBits
  else match c.getLsbD 2, c.getLsbD 1, c.getLsbD 0 with
    | false, false, false => unflagged c .b16enc
    | false, false, true => unflagged c .b16dec
    | false, true, false => unflagged c .b32enc
    | false, true, true => unflagged c .b32dec
    | true, false, false => .legal (.b64enc (c.getLsbD 3) (c.getLsbD 4) (c.getLsbD 5))
    | true, false, true =>
      if c.extractLsb 5 4 = 0#2 then .legal (.b64dec (c.getLsbD 3)) else .illegal .encodeFlagWithDecode
    | true, true, _ => .illegal .reservedCodec

/-- A flag bit at its place in the command word (R50). -/
def flagBit (place : Nat) (on : Bool) : Byte := if on then 1#8 <<< place else 0#8

/-- The command byte of an operation (R52; R120 and R125 give the flags' places). -/
def encode : Instr → Byte
  | .b16enc => 0x00
  | .b16dec => 0x01
  | .b32enc => 0x02
  | .b32dec => 0x03
  | .b64enc u np w => 0x04 ||| flagBit 3 u ||| flagBit 4 np ||| flagBit 5 w
  | .b64dec u => 0x05 ||| flagBit 3 u

/-- The decoder on an instruction numbered as spec/opcode_table.json numbers it. There is one instruction length, 8
bits (R54): a longer word is no instruction, and the bits above `nbits` are 0. -/
def decodeTableWord (nbits w : Nat) : Option Instr :=
  if nbits ≤ 8 then
    match decode (BitVec.ofNat 8 (w % 2 ^ nbits)) with
    | .legal i => some i
    | .illegal _ => none
  else none

/-- The assembler text of a launch (R62): the mnemonic, then `.u`, `.n`, `.w` in that order. -/
def assembler : Instr → String
  | .b16enc => "B16ENC"
  | .b16dec => "B16DEC"
  | .b32enc => "B32ENC"
  | .b32dec => "B32DEC"
  | .b64enc u np w =>
    "B64ENC" ++ (if u then ".u" else "") ++ (if np then ".n" else "") ++ (if w then ".w" else "")
  | .b64dec u => "B64DEC" ++ (if u then ".u" else "")

end Sys2Proof
end

