-- ==== Sys2Proof/Machine/Alphabet.lean ====
section
/-! DEFINITION. The alphabet ROMs and the alphabet_lookup unit (40_alphabet_padding.md sections 1 and 2). -/

namespace Sys2Proof.Machine

/-- The alphabet selectors of 40_alphabet_padding.md: base16, base32, base64 standard, base64 URL-safe. -/
inductive Alphabet where
  | a16
  | a32
  | a64s
  | a64u
deriving DecidableEq, Repr

/-- What the reverse lookup answers (R75): an index, the pad symbol, or neither. -/
inductive Lookup where
  | val (i : Nat)
  | pad
  | invalid
deriving DecidableEq, Repr

/-- The pad symbol `'='` (00_scope.md R6). -/
def padSymbol : Byte := 0x3D

/-- `n` successive byte values from `first` on. -/
def byteRun (first n : Nat) : List Byte := (List.range n).map fun i => BitVec.ofNat 8 (first + i)

/-- The letters and digits that both base64 alphabets share (R72, R73): `A..Z a..z 0..9`. -/
def base64Common : List Byte := byteRun 0x41 26 ++ byteRun 0x61 26 ++ byteRun 0x30 10

/-- The four read-only tables (10_state.md R19): R70, R71, R72, R73. -/
def rom : Alphabet → List Byte
  | .a16 => byteRun 0x30 10 ++ byteRun 0x41 6
  | .a32 => byteRun 0x41 26 ++ byteRun 0x32 6
  | .a64s => base64Common ++ [0x2B, 0x2F]
  | .a64u => base64Common ++ [0x2D, 0x5F]

/-- `N(sel)`, the size of an alphabet (R74). -/
def alphabetSize : Alphabet → Nat
  | .a16 => 16
  | .a32 => 32
  | .a64s => 64
  | .a64u => 64

/-- Forward lookup `AlphEnc(sel, i) = ROM_sel[i]`, defined for `i < N(sel)`; no caller leaves that range (R74). -/
def alphEnc (sel : Alphabet) (i : Nat) : Byte := (rom sel).getD i 0

/-- The part of `AlphDec` that the two base64 alphabets share: letters and digits (R75). -/
def alphDecBase64Common (c : Nat) : Option Nat :=
  if 0x41 ≤ c ∧ c ≤ 0x5A then some (c - 0x41)
  else if 0x61 ≤ c ∧ c ≤ 0x7A then some (c - 0x61 + 26)
  else if 0x30 ≤ c ∧ c ≤ 0x39 then some (c - 0x30 + 52)
  else none

/-- `AlphDec` of a base64 alphabet whose last two symbols are `c62` and `c63` (R75). -/
def alphDecBase64 (c62 c63 c : Nat) : Lookup :=
  if c = 0x3D then .pad
  else match alphDecBase64Common c with
    | some i => .val i
    | none => if c = c62 then .val 62 else if c = c63 then .val 63 else .invalid

/-- Reverse lookup `AlphDec(sel, c)`, total over the byte values (R75). -/
def alphDec (sel : Alphabet) (b : Byte) : Lookup :=
  let c := b.toNat
  match sel with
  | .a16 =>
    if 0x30 ≤ c ∧ c ≤ 0x39 then .val (c - 0x30)
    else if 0x41 ≤ c ∧ c ≤ 0x46 then .val (c - 0x41 + 10)
    else .invalid
  | .a32 =>
    if c = 0x3D then .pad
    else if 0x41 ≤ c ∧ c ≤ 0x5A then .val (c - 0x41)
    else if 0x32 ≤ c ∧ c ≤ 0x37 then .val (c - 0x32 + 26)
    else .invalid
  | .a64s => alphDecBase64 0x2B 0x2F c
  | .a64u => alphDecBase64 0x2D 0x5F c

/-- Base16 case fold `Fold(c)`: ASCII lower-case letters become upper case (R76). -/
def fold (b : Byte) : Byte :=
  if 0x61 ≤ b.toNat ∧ b.toNat ≤ 0x7A then b - 0x20 else b

/-- `Sel(B64*, url_safe)` (40_alphabet_padding.md, head). -/
def base64Alphabet (urlSafe : Bool) : Alphabet := if urlSafe then .a64u else .a64s

end Sys2Proof.Machine
end

