-- ==== Sys2Proof/Machine/State.lean ====
section
/-! DEFINITION. The architectural state of one block (10_state.md) as plain data, its reset value (R21, R160), and the
reasons a step can stop. -/

namespace Sys2Proof.Machine

/-- The three error causes of an operation (60_exceptions.md R140). They are results, reported in STATUS and ERR_POS:
none of them stops the machine. -/
inductive ErrorCause where
  | invalidSymbol
  | malformedLength
  | illegalCommand
deriving DecidableEq, Repr

/-- The result of an operation, `Ok(bytes) | Err(code, pos)` (00_scope.md R7, 60_exceptions.md R144). -/
inductive Result where
  | ok (out : List Byte)
  | err (cause : ErrorCause) (pos : Nat)
deriving DecidableEq, Repr

/-- A buffer: its cells that hold a byte, by index, strictly rising. An unlisted cell is no-value (10_state.md R17, R18). -/
abbrev Memory := List Host.Cell

/-- The canonical form: indices strictly rising, so that equal buffers are equal lists. No-value is not a byte, so no
listed cell can equal what an unlisted one reads as. -/
abbrev Memory.wf (m : Memory) : Prop := List.Pairwise (fun x y => x.1 < y.1) m

/-- `STATUS` (10_state.md R15). The reserved bits 7:5 are no field: they read as 0 (`Status.toByte`). -/
structure Status where
  busy : Bool
  done : Bool
  err : Bool
  errCode : BitVec 2
deriving DecidableEq, Repr

/-- The state record of 10_state.md, then the model's own three fields. -/
structure State where
  /-- `CMD`, R12. -/
  cmd : Byte
  /-- `SRC_LEN`, R13. -/
  srcLen : Nat
  /-- `DST_LEN`, R14. -/
  dstLen : Nat
  /-- `STATUS`, R15. -/
  status : Status
  /-- `ERR_POS`, R16. -/
  errPos : Nat
  /-- `SRC`, R17. -/
  src : Memory
  /-- `DST`, R18. -/
  dst : Memory
  /-- The model's own: the configuration (00_scope.md R5), which no step changes (log entry 1). -/
  params : Params
  /-- The model's own: which free bytes the never-written source cells hold (log entry 4). -/
  epoch : Nat
  /-- The model's own: the pending turns of host, core and reset input, next first (log entry 7). -/
  turns : List Turn
deriving DecidableEq, Repr

/-- The faults: host moves that the spec puts outside the model. No operation raises one. -/
inductive Fault where
  /-- The host reads a `DST` cell that is no-value (10_state.md R18, 93_implementation_defined.md U7: "`refuse` the host
  move"). Raised by `State.hostMove`. Safe: the model stops where the hardware answers an unspecified byte. -/
  | readNoValue (index : Nat)
  /-- A host access to `SRC` or `DST` at an index at or beyond the capacity (20_memory.md R31,
  93_implementation_defined.md U8: "no such cell exists"). Raised by `State.hostMove`. Safe: the model stops. -/
  | noSuchCell (index : Nat)
deriving DecidableEq, Repr

/-- The refusals. No operation ends in one. -/
inductive Refusal where
  /-- An instruction without a meaning yet, by its mnemonic. Raised by no arm of `exec` now. Safe: nothing is claimed of it. -/
  | notModelled (mnemonic : String)
  /-- The configuration breaks a constraint of 00_scope.md R5 (93_implementation_defined.md U14: "a model `refuse`s a
  configuration that breaks them"). Raised by `runTurn`. Safe: the spec has no such block. -/
  | badParams
  /-- A host write of a length that needs more than `LEN_W` bits, which no whole-register write carries (10_state.md
  R13, 20_memory.md R33, 93_implementation_defined.md U9). Raised by `State.hostMove`. Safe: the spec has no such host move. -/
  | valueTooWide (value : Nat)
deriving DecidableEq, Repr

/-- The reset state of 10_state.md R21 under a configuration: every register 0, every cell no-value, idle. -/
def State.resetWith (p : Params) : State where
  cmd := 0x00
  srcLen := 0
  dstLen := 0
  status := { busy := false, done := false, err := false, errCode := 0 }
  errPos := 0
  src := []
  dst := []
  params := p
  epoch := 0
  turns := []

/-- The machine right after reset (70_reset_and_hazards.md R160), in the configuration of log entry 1. -/
def State.reset : State := State.resetWith Params.ofPrograms

end Sys2Proof.Machine
end

