-- ==== Sys2Proof/Machine/Flags.lean ====
section
/-! DEFINITION. The values of `STATUS` (10_state.md R15), the error codes (60_exceptions.md R140), and what a host reads. -/

namespace Sys2Proof.Machine

/-- `ERR_CODE` of an error cause (60_exceptions.md R140). -/
def errorCode : ErrorCause → BitVec 2
  | .invalidSymbol => 1
  | .malformedLength => 2
  | .illegalCommand => 3

/-- `STATUS` from launch to completion (70_reset_and_hazards.md R163). -/
def statusBusy : Status := { busy := true, done := false, err := false, errCode := 0 }

/-- `STATUS` after a successful completion (20_memory.md R40). -/
def statusOk : Status := { busy := false, done := true, err := false, errCode := 0 }

/-- `STATUS` after a completion with error (60_exceptions.md R145). -/
def statusErr (e : ErrorCause) : Status := { busy := false, done := true, err := true, errCode := errorCode e }

/-- The register as a host reads it: `BUSY` bit 0, `DONE` bit 1, `ERR` bit 2, `ERR_CODE` bits 4:3, bits 7:5 zero (R15). -/
def statusByte (t : Status) : Byte :=
  0#3 ++ t.errCode ++ BitVec.ofBool t.err ++ BitVec.ofBool t.done ++ BitVec.ofBool t.busy

end Sys2Proof.Machine
end

