-- ==== Sys2Proof/Machine/Ops.lean ====
section
/-! DEFINITION. The named operations: one byte of a buffer, launch, completion with success and with error, reset, the
accesses of the host. -/

namespace Sys2Proof.Machine

/-- `MemRead(buffer:a, 1)` (20_memory.md R46): the byte of cell `a`, or none where the cell is no-value. -/
def Memory.read : Memory → Nat → Option Byte
  | [], _ => none
  | (k, b) :: m, a => if k = a then some b else Memory.read m a

/-- `MemWrite(buffer:a, 1, b)` (20_memory.md R46), keeping the canonical form. -/
def Memory.write : Memory → Nat → Byte → Memory
  | [], a, b => [(a, b)]
  | (k, c) :: m, a, b =>
    if a < k then (a, b) :: (k, c) :: m
    else if a = k then (a, b) :: m
    else (k, c) :: Memory.write m a b

/-- The buffer whose cells from `a` on hold the given bytes in order and whose other cells are no-value. -/
def Memory.bytesAt : Nat → List Byte → Memory
  | _, [] => []
  | a, b :: bs => (a, b) :: Memory.bytesAt (a + 1) bs

/-- The byte a source cell holds: the one written, or the free value where no host has written it since reset
(70_reset_and_hazards.md R164: "the hardware uses whatever the cell physically holds"; log entry 3). -/
def State.srcByte (s : State) (a : Nat) : Byte := (s.src.read a).getD (Config.unwrittenByte s.epoch a)

/-- Launch (70_reset_and_hazards.md R163), one indivisible step: the command is stored, the results of the operation
before are cleared, the block is busy. The epoch moves on (log entry 4). -/
def State.launch (s : State) (c : Byte) : State :=
  { s with cmd := c, status := statusBusy, errPos := 0, dstLen := 0, dst := [], epoch := s.epoch + 1 }

/-- Completion with success (20_memory.md R40, 70_reset_and_hazards.md R165). -/
def State.completeOk (s : State) (out : List Byte) : State :=
  { s with dst := Memory.bytesAt 0 out, dstLen := out.length, status := statusOk, errPos := 0 }

/-- Completion with error, the analogue of taking an exception (60_exceptions.md R145): nothing is saved, no mode
changes, nothing jumps, and there is no return from it (R151). -/
def State.completeErr (s : State) (e : ErrorCause) (pos : Nat) : State :=
  { s with dst := [], dstLen := 0, status := statusErr e, errPos := pos }

/-- The completion step of 20_memory.md R40 for a result of `Exec`. -/
def State.complete (s : State) : Result → State
  | .ok out => s.completeOk out
  | .err e pos => s.completeErr e pos

/-- Reset (70_reset_and_hazards.md R160, R161), also of a busy block: the reset state of 10_state.md R21. The
configuration and the turns to come are the environment's; the epoch moves on (log entry 4). -/
def State.resetEvent (s : State) : State :=
  { State.resetWith s.params with epoch := s.epoch + 1, turns := s.turns }

/-- What a host reads at a port (70_reset_and_hazards.md R168), as a number; none where the port has no value to give. -/
def State.portValue (s : State) : Port → Option Nat
  | .cmd => some s.cmd.toNat
  | .srcLen => some s.srcLen
  | .dstLen => some s.dstLen
  | .status => some (statusByte s.status).toNat
  | .errPos => some s.errPos
  | .src k => if k < s.params.srcCap then some (s.srcByte k).toNat else none
  | .dst k => if k < s.params.dstCap then (s.dst.read k).map BitVec.toNat else none

/-- A host write to host read/write state: dropped while busy, without error (70_reset_and_hazards.md R168). -/
def State.unlessBusy (s : State) (written : State) : State := if s.status.busy then s else written

/-- A host access by `index` to a buffer of `cap` cells: no such cell at or beyond the capacity (20_memory.md R31). -/
def withCell (index cap : Nat) (t : Host.Outcome State Fault Refusal) : Host.Outcome State Fault Refusal :=
  if index < cap then t else .fault (.noSuchCell index)

/-- A host write of a whole length register: the value has at most `LEN_W` bits (20_memory.md R33). -/
def State.withLength (s : State) (n : Nat) (t : State) : Host.Outcome State Fault Refusal :=
  if s.params.fitsLen n then .next t else .refused (.valueTooWide n)

/-- A host read of a port: it changes nothing (20_memory.md R38). -/
def State.hostRead (s : State) : Port → Host.Outcome State Fault Refusal
  | .cmd | .srcLen | .dstLen | .status | .errPos => .next s
  | .src k => withCell k s.params.srcCap (.next s)
  | .dst k => withCell k s.params.dstCap (if (s.dst.read k).isSome then .next s else .fault (.readNoValue k))

/-- One access of the host (70_reset_and_hazards.md R163, R168; 10_state.md R12 to R18). -/
def State.hostMove (s : State) : HostMove → Host.Outcome State Fault Refusal
  | .writeCmd c => .next (s.unlessBusy (s.launch c))
  | .writeSrcLen n => s.withLength n (s.unlessBusy { s with srcLen := n })
  | .writeSrc k b => withCell k s.params.srcCap (.next (s.unlessBusy { s with src := s.src.write k b }))
  | .writeDstLen n => s.withLength n s
  | .writeStatus _ => .next s
  | .writeErrPos n => s.withLength n s
  | .writeDst k _ => withCell k s.params.dstCap (.next s)
  | .read p => s.hostRead p

end Sys2Proof.Machine
end

