-- ==== Sys2Proof/Machine/Operands.lean ====
section
/-! DEFINITION. The operand of an operation (30_encoding.md R51), bit slices of a group (20_memory.md R34, 30_encoding.md
R58 to R60), and the group and window walks that the operations share. -/

namespace Sys2Proof.Machine

/-- The input data `SRC[0 .. SRC_LEN)` in order (20_memory.md R32, 30_encoding.md R51). -/
def State.input (s : State) : List Byte := (List.range s.srcLen).map s.srcByte

/-- The result of a unit on the state's operands, after the check `SRC_LEN > SRC_CAP` (60_exceptions.md R143, R144). -/
def State.resultOf (s : State) (unit : List Byte → Result) : Result :=
  if s.srcLen > s.params.srcCap then .err .illegalCommand 0 else unit s.input

/-- `v[hi:lo]`, the bit slice as an unsigned number (00_scope.md R7). -/
def slice (v hi lo : Nat) : Nat := v / 2 ^ lo % 2 ^ (hi + 1 - lo)

/-- `x0 ++ x1 ++ ...` of values of `w` bits each, the first most significant (00_scope.md R7, 20_memory.md R34). -/
def concatBits (w : Nat) (xs : List Nat) : Nat := xs.foldl (fun v x => v * 2 ^ w + x) 0

/-- A sequence cut into successive pieces of `size` elements, the last one possibly shorter: the walk "in steps of 5 or 3"
(40_alphabet_padding.md R83). -/
def groupsOf {α : Type} (size : Nat) (xs : List α) : List (List α) :=
  (List.range (ceilDiv xs.length size)).map fun g => (xs.drop (size * g)).take size

/-- The group string `V`: the group's real bytes, then the NUL fill, which reads no memory (20_memory.md R34, R37). -/
def groupString (c : Codec) (group : List Byte) : Nat :=
  concatBits 8 ((List.range (rawCount c)).map fun k => (group.getD k 0).toNat)

/-- `index_j` of a group (30_encoding.md R59, R60): the `j`-th field of the group string from its most significant end. -/
def symbolIndex (c : Codec) (group : List Byte) (j : Nat) : Nat :=
  slice (groupString c group) (8 * rawCount c - 1 - symBits c * j) (8 * rawCount c - symBits c * (j + 1))

/-- The symbols of one group of base32 or base64 (42_base32.md R100, 43_base64.md R120): a data symbol, or at a pad
position the pad symbol, or nothing where `noPadding`. -/
def encodeGroup (c : Codec) (sel : Alphabet) (noPadding : Bool) (group : List Byte) : List Byte :=
  (List.range (symCount c)).flatMap fun j =>
    if isData c j group.length then [alphEnc sel (symbolIndex c group j)]
    else if noPadding then [] else [padSymbol]

/-- The scan of one window (42_base32.md R106, 43_base64.md R128): the indices before the first pad symbol or the end, or
the position of the first invalid symbol. Each symbol comes with its position in the source buffer. -/
def scanWindow (sel : Alphabet) : List (Byte × Nat) → Except Nat (List Nat)
  | [] => .ok []
  | (b, p) :: rest =>
    match alphDec sel b with
    | .val i =>
      match scanWindow sel rest with
      | .ok is => .ok (i :: is)
      | .error q => .error q
    | .pad => .ok []
    | .invalid => .error p

/-- The whole bytes that the valid symbols of a window determine (40_alphabet_padding.md R82): bits `8k .. 8k+7` of `W`
from its most significant end; the bits left over are dropped. -/
def windowBytes (c : Codec) (is : List Nat) : List Byte :=
  let width := symBits c * is.length
  (List.range (bytesFrom c is.length)).map fun k =>
    BitVec.ofNat 8 (slice (concatBits (symBits c) is) (width - 1 - 8 * k) (width - 8 * (k + 1)))

/-- The windows in order, up to and with the first incomplete one (42_base32.md R104, R107; 43_base64.md R125, R128). -/
def decodeWindows (c : Codec) (sel : Alphabet) : List (List (Byte × Nat)) → Except Nat (List Byte)
  | [] => .ok []
  | w :: rest =>
    match scanWindow sel w with
    | .error p => .error p
    | .ok is =>
      if is.length < symCount c then .ok (windowBytes c is)
      else match decodeWindows c sel rest with
        | .ok out => .ok (windowBytes c is ++ out)
        | .error p => .error p

/-- The decode of a text of symbols with their positions: `InvalidSymbol` at the lowest bad position the scan reaches
(60_exceptions.md R146, R147), else the bytes. -/
def decodeText (c : Codec) (sel : Alphabet) (text : List (Byte × Nat)) : Result :=
  match decodeWindows c sel (groupsOf (symCount c) text) with
  | .ok out => .ok out
  | .error p => .err .invalidSymbol p

end Sys2Proof.Machine
end

