-- ==== Sys2Proof/Machine/Base16.lean ====
section
/-! DEFINITION. The base16 operations `B16ENC` and `B16DEC` (41_base16.md). -/

namespace Sys2Proof.Machine

/-- `B16Enc(in)` (R90): two symbols a byte, high nibble first. -/
def b16Enc (input : List Byte) : Result :=
  .ok (input.flatMap fun b => [alphEnc .a16 (slice b.toNat 7 4), alphEnc .a16 (slice b.toNat 3 0)])

/-- The symbol check of `B16DEC` (R94): the indices of all symbols, or the position of the first that is no hex digit. -/
def hexIndices : List (Byte × Nat) → Except Nat (List Nat)
  | [] => .ok []
  | (b, p) :: rest =>
    match alphDec .a16 (fold b) with
    | .val i =>
      match hexIndices rest with
      | .ok is => .ok (i :: is)
      | .error q => .error q
    | .pad => .error p
    | .invalid => .error p

/-- `(hi << 4) | lo` of each pair of indices (R92). -/
def joinNibbles : List Nat → List Byte
  | hi :: lo :: rest => BitVec.ofNat 8 ((hi <<< 4) ||| lo) :: joinNibbles rest
  | [_] => []
  | [] => []

/-- `B16Dec(in)` (R92): the length check (R93), then the symbol check (R94), then the bytes. -/
def b16Dec (input : List Byte) : Result :=
  if input.length % 2 ≠ 0 then .err .malformedLength input.length
  else match hexIndices input.zipIdx with
    | .ok is => .ok (joinNibbles is)
    | .error p => .err .invalidSymbol p

/-- `B16ENC` (R90): its completion. -/
def execB16enc (s : State) : Host.Outcome State Fault Refusal := .next (s.complete (s.resultOf b16Enc))

/-- `B16DEC` (R92): its completion. -/
def execB16dec (s : State) : Host.Outcome State Fault Refusal := .next (s.complete (s.resultOf b16Dec))

end Sys2Proof.Machine
end

