-- ==== Sys2Proof/Machine/Base32.lean ====
section
/-! DEFINITION. The base32 operations `B32ENC` and `B32DEC` (42_base32.md). -/

namespace Sys2Proof.Machine

/-- `B32Enc(in)` (R100): the groups of 5 bytes in order, pad symbols at the pad positions of the last (R102). -/
def b32Enc (input : List Byte) : Result :=
  .ok ((groupsOf (rawCount .base32) input).flatMap (encodeGroup .base32 .a32 false))

/-- `B32Dec(in)` (R104): the length check over the whole input (R105), then the windows. -/
def b32Dec (input : List Byte) : Result :=
  if input.length % 8 ≠ 0 then .err .malformedLength input.length
  else decodeText .base32 .a32 input.zipIdx

/-- `B32ENC` (R100): its completion. -/
def execB32enc (s : State) : Host.Outcome State Fault Refusal := .next (s.complete (s.resultOf b32Enc))

/-- `B32DEC` (R104): its completion. -/
def execB32dec (s : State) : Host.Outcome State Fault Refusal := .next (s.complete (s.resultOf b32Dec))

end Sys2Proof.Machine
end

