-- ==== Sys2Proof/Machine/Base64.lean ====
section
/-! DEFINITION. The base64 operations `B64ENC` and `B64DEC` (43_base64.md). -/

namespace Sys2Proof.Machine

/-- The line break before group `g` (R123): for every `g >= 1` that is a multiple of `WRAP_GROUPS`, when `wrap`. -/
def breakBefore (wrap : Bool) (g : Nat) : List Byte :=
  if wrap ∧ 1 ≤ g ∧ g % wrapGroups = 0 then lineBreak else []

/-- `B64Enc(in, u, np, w)` (R120): the groups of 3 bytes in order, each after its line break. -/
def b64Enc (urlSafe noPadding wrap : Bool) (input : List Byte) : Result :=
  .ok ((groupsOf (rawCount .base64) input).zipIdx.flatMap fun (group, g) =>
    breakBefore wrap g ++ encodeGroup .base64 (base64Alphabet urlSafe) noPadding group)

/-- The stripped text `T` with the kept bytes' positions `P` (R125, R126). -/
def strippedText (input : List Byte) : List (Byte × Nat) := input.zipIdx.filter fun x => !isStripped x.1

/-- `B64Dec(in, u)` (R125): strip (R126), the length check on what is left (R127), then the windows (R128). -/
def b64Dec (urlSafe : Bool) (input : List Byte) : Result :=
  if (strippedText input).length % 4 = 1 then .err .malformedLength input.length
  else decodeText .base64 (base64Alphabet urlSafe) (strippedText input)

/-- `B64ENC` (R120): its completion. -/
def execB64enc (urlSafe noPadding wrap : Bool) (s : State) : Host.Outcome State Fault Refusal :=
  .next (s.complete (s.resultOf (b64Enc urlSafe noPadding wrap)))

/-- `B64DEC` (R125): its completion. -/
def execB64dec (urlSafe : Bool) (s : State) : Host.Outcome State Fault Refusal :=
  .next (s.complete (s.resultOf (b64Dec urlSafe)))

end Sys2Proof.Machine
end

