-- ==== Sys2Proof/Machine/Dispatch.lean ====
section
/-! DEFINITION. One arm per instruction: the operation's completion (60_exceptions.md R144, 20_memory.md R40). -/

namespace Sys2Proof.Machine

def exec (i : Instr) (s : State) : Host.Outcome State Fault Refusal :=
  match i with
  | .b16enc => Sys2Proof.Machine.execB16enc s
  | .b16dec => Sys2Proof.Machine.execB16dec s
  | .b32enc => Sys2Proof.Machine.execB32enc s
  | .b32dec => Sys2Proof.Machine.execB32dec s
  | .b64enc u np w => Sys2Proof.Machine.execB64enc u np w s
  | .b64dec u => Sys2Proof.Machine.execB64dec u s

end Sys2Proof.Machine
end

