-- ==== Sys2Proof/Machine/Turns.lean ====
section
/-! DEFINITION. The turns of core, host and reset input (20_memory.md R41, 70_reset_and_hazards.md R160 to R168). -/

namespace Sys2Proof.Machine

/-- The core's turn. A busy block completes the operation in flight: the command word sampled at launch is decoded and
executed, or, where it is illegal, ends with `IllegalCommand` (60_exceptions.md R143, R144). "a state with `STATUS.BUSY = 0` is
quiescent and the core has no step in it" (70_reset_and_hazards.md R166): nothing changes. -/
def coreTurn (s : State) : Host.Outcome State Fault Refusal :=
  if s.status.busy then
    match decode s.cmd with
    | .legal i => exec i s
    | .illegal _ => .next (s.completeErr .illegalCommand 0)
  else .next s

/-- One turn (log entry 7): the first pending one; where none is pending, the core's. A configuration that breaks
00_scope.md R5 is refused (93_implementation_defined.md U14). -/
def runTurn (s : State) : Host.Outcome State Fault Refusal :=
  if s.params.WF then
    match s.turns with
    | [] => coreTurn s
    | .core :: ts => coreTurn { s with turns := ts }
    | .host m :: ts => ({ s with turns := ts } : State).hostMove m
    | .reset :: ts => .next ({ s with turns := ts } : State).resetEvent
  else .refused .badParams

end Sys2Proof.Machine
end

