-- ==== Sys2Proof/Machine/Step.lean ====
section
/-! DEFINITION. One step: the next turn of the interleaving of host and core (20_memory.md R41). -/

namespace Sys2Proof.Machine

/-- One step of the machine: one indivisible turn. -/
def step (s : State) : Host.Outcome State Fault Refusal := runTurn s

/-- `s` with the command of these bits launched (70_reset_and_hazards.md R163) and the next turn the core's, so that the very
next step runs it (log entry 10). -/
def State.withFetchWord (s : State) (nbits w : Nat) : State :=
  { s.launch (BitVec.ofNat 8 (w % 2 ^ nbits)) with turns := .core :: s.turns }

end Sys2Proof.Machine
end

