-- ==== Sys2Proof/Machine/Exec.lean ====
section
/-! DEFINITION. The dispatch function `Exec` (60_exceptions.md R144) as a pure function, for statements to compare the machine's
completion with. -/

namespace Sys2Proof.Machine

/-- The unit that an operation launches (60_exceptions.md R144). -/
def unitResult : Instr → List Byte → Result
  | .b16enc => b16Enc
  | .b16dec => b16Dec
  | .b32enc => b32Enc
  | .b32dec => b32Dec
  | .b64enc u np w => b64Enc u np w
  | .b64dec u => b64Dec u

/-- `Exec(cmd, len, src)` (60_exceptions.md R144), with `cap` for `SRC_CAP` and `input` for `src[0 .. len)`. -/
def execResult (cmd : Byte) (len cap : Nat) (input : List Byte) : Result :=
  match decode cmd with
  | .illegal _ => .err .illegalCommand 0
  | .legal i => if len > cap then .err .illegalCommand 0 else unitResult i input

end Sys2Proof.Machine
end

