-- ==== Sys2Proof/Machine/HostScript.lean ====
section
/-! DEFINITION. The host-script pseudo-instructions (30_encoding.md R63): actions of the host, each the expansion to port
accesses that the rule gives. A launch waits for its completion, so that the next pseudo-instruction meets an idle block. -/

namespace Sys2Proof.Machine

/-- `LOAD <bytes>`: every byte to `SRC` in order, then `SRC_LEN`. -/
def scriptLoad (bytes : List Byte) : List HostMove :=
  (bytes.zipIdx.map fun x => HostMove.writeSrc x.2 x.1) ++ [HostMove.writeSrcLen bytes.length]

/-- "All are legal only while `STATUS.BUSY = 0`" (R63): a pseudo-instruction may begin. -/
abbrev State.ScriptLegal (s : State) : Prop := s.status.busy = false

/-- Whether a read of `STATUS` ends the wait: it reads `DONE = 1`. -/
def scriptWaitEnds (s : State) : Bool := s.status.done

/-- "then read `STATUS` repeatedly until `DONE = 1`", as turns of a launched block: `reads` reads that come before the
completion event, whose time is open (70_reset_and_hazards.md R165, R171), the core's turn, which is not the host's, and the
read that ends the wait (log entry 17). -/
def scriptWait (reads : Nat) : List Turn :=
  List.replicate reads (.host (.read .status)) ++ [.core, .host (.read .status)]

/-- `.cmd <byte>` (95_test_vectors.md P3): `CMD <- byte`, legal command or not, then the wait. -/
def scriptCmd (c : Byte) (reads : Nat) : List Turn := .host (.writeCmd c) :: scriptWait reads

/-- `<mnemonic>`: `CMD <- byte of rule R62`, then the wait. -/
def scriptLaunch (i : Instr) (reads : Nat) : List Turn := scriptCmd (encode i) reads

/-- `XFER`: the output is loaded as the next input (70_reset_and_hazards.md R169 (f): it must fit). -/
def scriptXfer (s : State) : List HostMove :=
  scriptLoad ((List.range s.dstLen).filterMap s.dst.read)

/-- `EXPECT <bytes>`: success, and `DST[0 .. DST_LEN)` is these bytes. -/
def scriptExpect (s : State) (bytes : List Byte) : Bool :=
  !s.status.err && s.dstLen == bytes.length &&
    (List.range bytes.length).all fun k => s.dst.read k == bytes[k]?

/-- `EXPECTERR <code>, <pos>`. -/
def scriptExpectErr (s : State) (code : BitVec 2) (pos : Nat) : Bool :=
  s.status.err && s.status.errCode == code && s.errPos == pos && s.dstLen == 0

/-- `IFERR <label>`: whether the script goes on at the label. -/
def scriptIfErr (s : State) : Bool := s.status.err

end Sys2Proof.Machine
end

