-- ==== Sys2Proof/Safety.lean ====
section
/-! DEFINITION. The terms that claims use: the launch premise, a loaded input, how an operation ends, and the invariant. -/

namespace Sys2Proof.Machine

/-- The launch premise (70_reset_and_hazards.md R164): every cell `SRC[0 .. SRC_LEN)` holds a byte. Outside it the machine runs on
free bytes (log entry 3). -/
abbrev State.LaunchPremise (s : State) : Prop := ∀ k, k < s.srcLen → (s.src.read k).isSome

/-- The input of `s` is `bytes`: they stand in `SRC[0 .. SRC_LEN)`, `SRC_LEN` is their count, and it is within capacity. -/
abbrev State.Loaded (s : State) (bytes : List Byte) : Prop :=
  s.srcLen = bytes.length ∧ bytes.length ≤ s.params.srcCap ∧
    ∀ k, k < bytes.length → s.src.read k = bytes[k]?

/-- What no completion changes (10_state.md R12, R13, R17; 60_exceptions.md R145): the command, the input, the model's own fields. -/
abbrev State.SameInputs (s t : State) : Prop :=
  t.cmd = s.cmd ∧ t.srcLen = s.srcLen ∧ t.src = s.src ∧ t.params = s.params ∧ t.epoch = s.epoch ∧ t.turns = s.turns

/-- `t` is `s` after a completion with success that delivers `out` (20_memory.md R40, 10_state.md R18). -/
def State.EndsOk (s : State) (out : List Byte) (t : State) : Prop :=
  t.dstLen = out.length ∧ (∀ k, t.dst.read k = out[k]?) ∧
    t.status = { busy := false, done := true, err := false, errCode := 0 } ∧ t.errPos = 0 ∧ s.SameInputs t

/-- `t` is `s` after a completion with error (60_exceptions.md R145). -/
def State.EndsErr (s : State) (code : BitVec 2) (pos : Nat) (t : State) : Prop :=
  t.dstLen = 0 ∧ (∀ k, t.dst.read k = none) ∧
    t.status = { busy := false, done := true, err := true, errCode := code } ∧ t.errPos = pos ∧ s.SameInputs t

/-- `t` is `s` after the completion with the result `r` (20_memory.md R40). -/
def State.EndsWith (s : State) (r : Result) (t : State) : Prop :=
  match r with
  | .ok out => s.EndsOk out t
  | .err e pos => s.EndsErr (errorCode e) pos t

/-- The core has the next turn. -/
abbrev State.CoreNext (s : State) (rest : List Turn) : Prop :=
  s.turns = .core :: rest ∨ (s.turns = [] ∧ rest = [])

/-- A turn that can fall within an operation without stopping the run or resetting the block: any access of the host but a
read of `DST`, whose cells are then no-value (70_reset_and_hazards.md R168, 93_implementation_defined.md U7). -/
abbrev HarmlessTurn (p : Params) : Turn → Prop
  | .core => True
  | .reset => False
  | .host (.read (.dst _)) => False
  | .host m => m.WF p

/-- `indices` are the alphabet indices of the first symbols of `text`, in order (40_alphabet_padding.md R75). -/
abbrev SymbolsOf (sel : Alphabet) (text : List Byte) (indices : List Nat) : Prop :=
  (text.take indices.length).map (alphDec sel) = indices.map Lookup.val

/-- The invariant of the machine: the configuration is legal, both buffers are canonical and within capacity, every length
fits `LEN_W` bits, and the relations of 10_state.md R14 to R18 between the results hold. -/
structure State.Inv (s : State) : Prop where
  params : s.params.WF
  srcCanonical : s.src.wf
  srcInBounds : ∀ c ∈ s.src, c.1 < s.params.srcCap
  srcLenFits : s.params.fitsLen s.srcLen
  /-- R18: exactly the cells `0 .. DST_LEN-1` hold a byte. -/
  dstCells : s.dst.map Prod.fst = List.range s.dstLen
  dstInBounds : s.dstLen ≤ s.params.dstCap
  errPosFits : s.params.fitsLen s.errPos
  /-- R15: `BUSY` and `DONE` are never both 1. -/
  notBusyAndDone : ¬ (s.status.busy = true ∧ s.status.done = true)
  /-- R15: `ERR = 1` exactly when `ERR_CODE != 0`. -/
  errIffCode : s.status.err = true ↔ s.status.errCode ≠ 0
  /-- R15: `ERR = 1` implies `DONE = 1`. -/
  errDone : s.status.err = true → s.status.done = true
  /-- R15: `ERR = 1` implies `DST_LEN = 0`. -/
  errNoOutput : s.status.err = true → s.dstLen = 0
  /-- R14, R16: no result before a completion. -/
  noResultBeforeDone : s.status.done = false → s.dstLen = 0 ∧ s.errPos = 0
  /-- R16: a success leaves `ERR_POS` 0. -/
  okNoPosition : s.status.err = false → s.errPos = 0

end Sys2Proof.Machine
end

