-- ==== Sys2Proof/Certificates/Slice0/Obligations.lean ====
section
/-! DEFINITION. The statements for the provers, by file of spec/. None of them is about a program; each that has hypotheses has
its witnesses in Sys2Proof/Tests/Slice0.lean. -/

open Sys2Proof Sys2Proof.Machine

/-! ## The command word (30_encoding.md) -/

/-- R53: the total function `Decode(c)`, clause by clause on the fields of R50. -/
def Obligations.CommandDecodeIsTheDecodeTable : Prop :=
  ∀ c : Byte,
    let reserved := c.toNat / 64
    let flags := c.toNat / 8 % 8
    let codec := c.toNat / 2 % 4
    let dir := c.toNat % 2
    let u : Bool := c.toNat / 8 % 2 = 1
    let np : Bool := c.toNat / 16 % 2 = 1
    let w : Bool := c.toNat / 32 % 2 = 1
    if reserved ≠ 0 then ∃ y, decode c = .illegal y
    else if codec = 0 ∧ dir = 0 then if flags = 0 then decode c = .legal .b16enc else ∃ y, decode c = .illegal y
    else if codec = 0 ∧ dir = 1 then if flags = 0 then decode c = .legal .b16dec else ∃ y, decode c = .illegal y
    else if codec = 1 ∧ dir = 0 then if flags = 0 then decode c = .legal .b32enc else ∃ y, decode c = .illegal y
    else if codec = 1 ∧ dir = 1 then if flags = 0 then decode c = .legal .b32dec else ∃ y, decode c = .illegal y
    else if codec = 2 ∧ dir = 0 then decode c = .legal (.b64enc u np w)
    else if codec = 2 ∧ dir = 1 then
      if flags / 2 = 0 then decode c = .legal (.b64dec u) else ∃ y, decode c = .illegal y
    else ∃ y, decode c = .illegal y

/-- R52, R62: the command bytes of every operation, as the rules print them. -/
def Obligations.CommandWordsDecodeAsListed : Prop :=
  decode 0x00 = .legal .b16enc ∧ decode 0x01 = .legal .b16dec ∧
  decode 0x02 = .legal .b32enc ∧ decode 0x03 = .legal .b32dec ∧
  decode 0x04 = .legal (.b64enc false false false) ∧ decode 0x0C = .legal (.b64enc true false false) ∧
  decode 0x14 = .legal (.b64enc false true false) ∧ decode 0x1C = .legal (.b64enc true true false) ∧
  decode 0x24 = .legal (.b64enc false false true) ∧ decode 0x2C = .legal (.b64enc true false true) ∧
  decode 0x34 = .legal (.b64enc false true true) ∧ decode 0x3C = .legal (.b64enc true true true) ∧
  decode 0x05 = .legal (.b64dec false) ∧ decode 0x0D = .legal (.b64dec true)

/-- R50, R52, R53: every operation decodes back from its command byte, and every legal byte is the byte of what it decodes to. -/
def Obligations.CommandDecodeAndEncodeAgree : Prop :=
  (∀ i : Instr, decode (encode i) = .legal i) ∧ (∀ (c : Byte) (i : Instr), decode c = .legal i → encode i = c)

/-! ## State, reset and the invariant (10_state.md, 70_reset_and_hazards.md) -/

/-- R21, R160: the registers, the buffers and the idle block after reset, in every configuration; State.reset is this state. -/
def Obligations.ResetLeavesEverythingClear : Prop :=
  (∀ p : Params, let s := State.resetWith p
    s.cmd = 0x00 ∧ s.srcLen = 0 ∧ s.dstLen = 0 ∧ statusByte s.status = 0x00 ∧ s.errPos = 0 ∧
      (∀ k, s.src.read k = none) ∧ (∀ k, s.dst.read k = none)) ∧
  ∃ p, State.reset = State.resetWith p

/-- R161: reset at any time, an operation in flight included, leaves the reset state: no completion, no output. The
configuration stays and the turns to come stay (the model's own fields, log entries 1, 4, 7). -/
def Obligations.ResetAbandonsTheOperationInFlight : Prop :=
  ∀ (s : State) (rest : List Turn), s.params.WF → s.turns = .reset :: rest →
    ∃ t, step s = .next t ∧
      ({ t with epoch := 0, turns := [] } : State) = State.resetWith s.params ∧ t.turns = rest

/-- R5, R13 to R18: the invariant holds right after reset (in the configuration of log entry 1). -/
def Obligations.ResetStateMeetsTheInvariant : Prop := State.reset.Inv

/-- R14 to R18, R5; the model's choices of log entries 3, 7, 8 (free bytes, turns, idle turns) are among the steps: every step,
whoever's turn it is, keeps the invariant: among it, no output ever overflows the
destination buffer, and the relations between the fields of STATUS, DST_LEN, ERR_POS and DST hold. -/
def Obligations.EveryStepKeepsTheInvariant : Prop :=
  ∀ s t : State, s.Inv → step s = .next t → t.Inv

/-- R15: under the invariant a host reads one of the four legal values of `STATUS[2:0]`, and zeros in the reserved bits. -/
def Obligations.StatusReadsAsALegalValue : Prop :=
  ∀ s : State, s.Inv →
    (statusByte s.status).toNat % 8 ∈ [0, 1, 2, 6] ∧ (statusByte s.status).toNat < 32

/-! ## Launch, completion, host accesses (20_memory.md, 60_exceptions.md, 70_reset_and_hazards.md) -/

/-- R163: the launch event of an idle block, all of it in one step; a write while busy is dropped and launches nothing.
R165, R144: a launch of any value, an illegal one too, completes at the core's next turn, with the result of `Exec` on the
resulting state. This last clause rests on the model's choices: where no turn is pending the core moves (log entry 7),
launch and completion are two steps (log entry 9), and where SRC cells of the input were never written, which R164 gives a
model no meaning for, the operation runs on free bytes (log entry 3). -/
def Obligations.CommandWriteLaunches : Prop :=
  ∀ (s : State) (c : Byte) (rest : List Turn), s.params.WF → s.turns = .host (.writeCmd c) :: rest →
    if s.status.busy then step s = .next { s with turns := rest }
    else ∃ t, step s = .next t ∧
      t.cmd = c ∧ t.status = { busy := true, done := false, err := false, errCode := 0 } ∧
      t.errPos = 0 ∧ t.dstLen = 0 ∧ (∀ k, t.dst.read k = none) ∧
      t.srcLen = s.srcLen ∧ t.src = s.src ∧ t.params = s.params ∧ t.turns = rest ∧
      let u : State := { t with turns := [] }
      ∃ v, step u = .next v ∧ u.EndsWith (execResult c s.srcLen s.params.srcCap u.input) v

/-- R40, R144: where the core has the turn and the command decodes, the step is the operation's `exec`, on the state less
that turn. That an empty list of turns is the core's turn is the model's choice (log entry 7), and so is that the completion
is a step of its own (log entry 9). -/
def Obligations.StepRunsTheDecodedInstruction : Prop :=
  ∀ (s : State) (i : Instr) (rest : List Turn), s.params.WF → s.CoreNext rest → s.status.busy = true →
    decode s.cmd = .legal i → step s = exec i { s with turns := rest }

/-- R144, R40: the completion is the one that `Exec(CMD, SRC_LEN, SRC)` gives, whatever the command byte and the length.
The statement has no launch premise: where a legal command's input takes in never-written SRC cells, which R164 gives a
model no meaning for, that the operation runs, on free bytes, is the model's choice (log entry 3). Whose turn it is, and that
the completion is a step of its own, are the choices of log entries 7 and 9. -/
def Obligations.CompletionDeliversTheResultOfExec : Prop :=
  ∀ (s : State) (rest : List Turn), s.params.WF → s.CoreNext rest → s.status.busy = true →
    ∃ t, step s = .next t ∧
      ({ s with turns := rest } : State).EndsWith (execResult s.cmd s.srcLen s.params.srcCap s.input) t

/-- R143, R140, R144, R163: an illegal command, or `SRC_LEN > SRC_CAP`, ends the operation with `IllegalCommand`, whatever
stands in SRC. R143 raises it at launch and R140 reports it at the completion; the model makes the check at the core's turn,
on the values that the launch left (log entry 9), and where no turn is pending the core moves (log entry 7). -/
def Obligations.IllegalLaunchEndsWithIllegalCommand : Prop :=
  ∀ (s : State) (rest : List Turn), s.params.WF → s.CoreNext rest → s.status.busy = true →
    ((∃ y, decode s.cmd = .illegal y) ∨ s.params.srcCap < s.srcLen) →
    ∃ t, step s = .next t ∧ ({ s with turns := rest } : State).EndsErr 3 0 t

/-- R143, R147: every operation on an over-long input ends with `IllegalCommand`, before any other error. -/
def Obligations.OverlongInputIsIllegalForEveryOperation : Prop :=
  ∀ (i : Instr) (s : State), s.params.srcCap < s.srcLen → ∃ t, exec i s = .next t ∧ s.EndsErr 3 0 t

/-- R40, R145, R148, R150 (on never-written SRC cells, R164, by the model's choice of log entry 3; exec does not look at BUSY,
log entry 9): every operation, from every state, completes; it changes nothing but its results, and it delivers
either a whole output without an error, or an error without output. -/
def Obligations.EveryOperationCompletesAndKeepsItsInputs : Prop :=
  ∀ (i : Instr) (s : State), ∃ t, exec i s = .next t ∧
    ((∃ out, s.EndsOk out t) ∨ ∃ code pos, code ≠ 0 ∧ s.EndsErr code pos t)

/-- R5 (on never-written SRC cells, R164, by the model's choice of log entry 3): no output of an operation is longer than `OutMax` of its input's length, so none overflows a legal destination buffer. -/
def Obligations.OutputFitsTheDestinationBuffer : Prop :=
  ∀ (i : Instr) (s : State), s.params.WF →
    ∃ t, exec i s = .next t ∧ t.dstLen ≤ outMax s.srcLen ∧ t.dstLen ≤ s.params.dstCap

/-- R2, R37, R40: the results of an operation are a function of its command and its own input alone: two states that agree on
`SRC[0 .. SRC_LEN)` get the same results, whatever an earlier operation left behind and whatever stands beyond `SRC_LEN`. -/
def Obligations.ResultDependsOnCommandAndInputAlone : Prop :=
  ∀ (i : Instr) (s₁ s₂ : State), s₁.LaunchPremise → s₁.srcLen = s₂.srcLen → s₁.params.srcCap = s₂.params.srcCap →
    (∀ k, k < s₁.srcLen → s₁.src.read k = s₂.src.read k) →
    ∃ t₁ t₂, exec i s₁ = .next t₁ ∧ exec i s₂ = .next t₂ ∧
      t₁.dst = t₂.dst ∧ t₁.dstLen = t₂.dstLen ∧ t₁.status = t₂.status ∧ t₁.errPos = t₂.errPos

/-- R168: while busy a host write changes nothing; writes of host read-only state change nothing at any time. -/
def Obligations.HostWritesAreDropped : Prop :=
  ∀ (s : State) (m : HostMove) (rest : List Turn), s.params.WF → s.turns = .host m :: rest → m.WF s.params →
    ((s.status.busy = true ∧ ∀ p, m ≠ .read p) ∨
      (∃ n, m = .writeDstLen n ∨ m = .writeErrPos n) ∨ (∃ b, m = .writeStatus b) ∨ ∃ k b, m = .writeDst k b) →
    step s = .next { s with turns := rest }

/-- R168: what the host reads while busy, in a state that meets the invariant. `HostReadsGiveTheFields` says what it reads at
any time. -/
def Obligations.HostReadsWhileBusy : Prop :=
  ∀ s : State, s.Inv → s.status.busy = true →
    s.portValue .status = some 1 ∧ s.portValue .dstLen = some 0 ∧ s.portValue .errPos = some 0 ∧
    s.portValue .cmd = some s.cmd.toNat ∧ s.portValue .srcLen = some s.srcLen ∧
    (∀ k b, s.src.read k = some b → s.portValue (.src k) = some b.toNat) ∧
    ∀ k, s.portValue (.dst k) = none

/-- R14 to R18, R38, R170 (`collect`): what the host reads at any time, busy or idle, in a state that meets the invariant. The
registers read their fields, STATUS with its bits at their places; a SRC cell that holds a byte reads it; a DST cell reads
the byte it holds, and one that is no-value has no value to read. That a never-written SRC cell within the capacity reads some
byte is the model's choice (log entry 3), and that a read is a function of the state is that of log entry 5. -/
def Obligations.HostReadsGiveTheFields : Prop :=
  ∀ s : State, s.Inv →
    s.portValue .cmd = some s.cmd.toNat ∧ s.portValue .srcLen = some s.srcLen ∧
    s.portValue .dstLen = some s.dstLen ∧ s.portValue .errPos = some s.errPos ∧
    s.portValue .status = some (s.status.busy.toNat + 2 * s.status.done.toNat + 4 * s.status.err.toNat +
      8 * s.status.errCode.toNat) ∧
    (∀ k b, s.src.read k = some b → s.portValue (.src k) = some b.toNat) ∧
    (∀ k, k < s.params.srcCap → ∃ v, v < 256 ∧ s.portValue (.src k) = some v) ∧
    (∀ k, s.portValue (.dst k) = (s.dst.read k).map BitVec.toNat) ∧
    ∀ k, k < s.dstLen ↔ ∃ b, s.portValue (.dst k) = some b

/-- R38: a host read of a register, of a source cell, or of a destination cell that holds a byte, changes nothing (that a read
leaves no record in the state is the model's choice, log entry 5). -/
def Obligations.HostReadsChangeNothing : Prop :=
  ∀ (s : State) (p : Port) (rest : List Turn), s.params.WF → s.turns = .host (.read p) :: rest → p.WF s.params →
    (∀ k, p = .dst k → (s.dst.read k).isSome) → step s = .next { s with turns := rest }

/-- R18, R31 (93_implementation_defined.md U7, U8; log entries 5, 6): the host accesses to a cell that does not exist or holds no
byte stop by name. -/
def Obligations.HostAccessWithoutACellOrAByteFaults : Prop :=
  ∀ (s : State) (k : Nat) (b : Byte) (rest : List Turn), s.params.WF →
    (s.params.srcCap ≤ k → s.turns = .host (.writeSrc k b) :: rest ∨ s.turns = .host (.read (.src k)) :: rest →
      step s = .fault (.noSuchCell k)) ∧
    (s.params.dstCap ≤ k → s.turns = .host (.writeDst k b) :: rest ∨ s.turns = .host (.read (.dst k)) :: rest →
      step s = .fault (.noSuchCell k)) ∧
    (k < s.params.dstCap → s.dst.read k = none → s.turns = .host (.read (.dst k)) :: rest →
      step s = .fault (.readNoValue k))

/-- R13, R33 (93_implementation_defined.md U9): a length register is written whole, with `LEN_W` bits; that a host write of a
value that needs more bits is refused by name, whether the register is host-writable or not and busy or not, is the model's
(log entry 2). -/
def Obligations.HostWriteOfATooWideLengthIsRefused : Prop :=
  ∀ (s : State) (n : Nat) (m : HostMove) (rest : List Turn), s.params.WF → s.turns = .host m :: rest →
    2 ^ s.params.lenW ≤ n → (m = .writeSrcLen n ∨ m = .writeDstLen n ∨ m = .writeErrPos n) →
    step s = .refused (.valueTooWide n)

/-- R13, R17: an idle block stores a written source byte and a written length; every other cell and register stays. -/
def Obligations.HostWritesStoreInAnIdleBlock : Prop :=
  ∀ (s : State) (rest : List Turn), s.params.WF → s.status.busy = false →
    (∀ k b, k < s.params.srcCap → s.turns = .host (.writeSrc k b) :: rest →
      ∃ t, step s = .next t ∧ t.src.read k = some b ∧ (∀ a, a ≠ k → t.src.read a = s.src.read a) ∧
        t = { s with src := t.src, turns := rest }) ∧
    (∀ n, n < 2 ^ s.params.lenW → s.turns = .host (.writeSrcLen n) :: rest →
      step s = .next { s with srcLen := n, turns := rest })

/-- R63 (`LOAD`, log entry 17), R17, R164: from an idle block whose next turns are the script `LOAD bytes`, running it leaves
exactly these bytes as the input, and the launch premise holds; the turns behind the script are still to come. -/
def Obligations.LoadScriptLoadsTheInput : Prop :=
  ∀ (s : State) (bytes : List Byte) (rest : List Turn), s.params.WF → s.ScriptLegal → bytes.length ≤ s.params.srcCap →
    s.turns = (scriptLoad bytes).map Turn.host ++ rest →
    ∃ t, Sys2Proof.core.run (bytes.length + 1) s = .next t ∧ t.Loaded bytes ∧ t.LaunchPremise ∧
      (∀ a, bytes.length ≤ a → t.src.read a = s.src.read a) ∧
      t = { s with src := t.src, srcLen := bytes.length, turns := rest }

/-- R63 (`<mnemonic>`, and `.cmd` of 95_test_vectors.md P3), R163, R165: the script of a launch waits for its completion. Whatever
the command byte and however many reads of STATUS come before the completion event (log entry 17), each of them finds a busy
block and does not end the wait; the last one reads `DONE = 1`, on the results that `Exec` gives, and leaves an idle block,
where the next pseudo-instruction is legal. There is no launch premise (R164): on never-written SRC cells the result is
that on free bytes (log entry 3). -/
def Obligations.LaunchScriptWaitsForItsCompletion : Prop :=
  ∀ (s : State) (c : Byte) (reads : Nat) (rest : List Turn), s.params.WF → s.ScriptLegal →
    (s.turns = scriptCmd c reads ++ rest ∨ ∃ i, c = encode i ∧ s.turns = scriptLaunch i reads ++ rest) →
    (∀ k, k ≤ reads → ∃ u, Sys2Proof.core.run (k + 1) s = .next u ∧
      u = { s.launch c with turns := scriptWait (reads - k) ++ rest } ∧
      u.portValue .status = some 1 ∧ scriptWaitEnds u = false) ∧
    let u := { s.launch c with turns := .host (.read .status) :: rest }
    ∃ t, Sys2Proof.core.run (reads + 2) s = .next t ∧
      u.EndsWith (execResult c s.srcLen s.params.srcCap u.input) t ∧ scriptWaitEnds t = true ∧ t.ScriptLegal ∧
      Sys2Proof.core.run (reads + 3) s = .next { t with turns := rest }

/-- R63 (`XFER`, log entry 17), R169 (f): from an idle block, output that fits is copied to SRC in order and its length to SRC_LEN,
and DST and every other field stay; output that does not fit stops at the first cell that does not exist (the model's choice, log entry 6). -/
def Obligations.XferScriptLoadsTheOutput : Prop :=
  ∀ (s : State) (rest : List Turn), s.Inv → s.ScriptLegal → s.turns = (scriptXfer s).map Turn.host ++ rest →
    (s.dstLen ≤ s.params.srcCap →
      ∃ t, Sys2Proof.core.run (s.dstLen + 1) s = .next t ∧ t.LaunchPremise ∧
        (∀ k, k < s.dstLen → t.src.read k = s.dst.read k) ∧ (∀ k, s.dstLen ≤ k → t.src.read k = s.src.read k) ∧
        t = { s with src := t.src, srcLen := s.dstLen, turns := rest }) ∧
    (s.params.srcCap < s.dstLen → Sys2Proof.core.run (s.params.srcCap + 1) s = .fault (.noSuchCell s.params.srcCap))

/-- R63 (`EXPECT`, `EXPECTERR`, `IFERR`, the end of a launch's wait), R15: each check holds exactly when the values that the host
reads at the ports are those the rule asserts. -/
def Obligations.ScriptChecksAreOfWhatTheHostReads : Prop :=
  ∀ s : State, s.Inv → ∃ status, s.portValue .status = some status ∧
    (scriptWaitEnds s = true ↔ status / 2 % 2 = 1) ∧
    (scriptIfErr s = true ↔ status / 4 % 2 = 1) ∧
    (∀ bytes, scriptExpect s bytes = true ↔
      (status / 4 % 2 = 0 ∧ s.portValue .dstLen = some bytes.length ∧
        ∀ k b, bytes[k]? = some b → s.portValue (.dst k) = some b.toNat)) ∧
    ∀ code pos, scriptExpectErr s code pos = true ↔
      (status / 4 % 2 = 1 ∧ status / 8 % 4 = code.toNat ∧ s.portValue .errPos = some pos ∧ s.portValue .dstLen = some 0)

/-- R166 says that the core has no step in a quiescent block. That the machine's step at the core's turn then answers the same
state less that turn is the model's choice (log entry 8), and so is that an empty list of turns is the core's turn (log entry 7). -/
def Obligations.IdleCoreTurnChangesNothing : Prop :=
  ∀ (s : State) (rest : List Turn), s.params.WF → s.CoreNext rest → s.status.busy = false →
    step s = .next { s with turns := rest }

/-- R166, R165, R168: whatever harmless accesses of the host are still to come, a busy block completes, and it delivers what
`Exec` gives on the state it is in now: nothing the host does meanwhile matters. The bound on the number of steps is the
model's: R166 gives weak fairness and R171 no bound, and the model's list of turns is finite and the core moves when it is
empty (log entry 7). There is no launch premise (R164): on never-written SRC cells the result is that on free bytes (log
entry 3). A read of DST is no harmless access: its cells are no-value while busy, and the read faults (U7, log entry 5). -/
def Obligations.BusyBlockCompletesOnItsLaunchState : Prop :=
  ∀ s : State, s.params.WF → s.status.busy = true → (∀ x ∈ s.turns, HarmlessTurn s.params x) →
    ∃ k t, k ≤ s.turns.length + 1 ∧ Sys2Proof.core.run k s = .next t ∧
      t.status.busy = false ∧ t.status.done = true ∧ t.cmd = s.cmd ∧ t.srcLen = s.srcLen ∧ t.src = s.src ∧
      match execResult s.cmd s.srcLen s.params.srcCap s.input with
      | .ok out => t.dstLen = out.length ∧ (∀ k, t.dst.read k = out[k]?) ∧ t.status.err = false ∧ t.errPos = 0
      | .err e pos => t.dstLen = 0 ∧ (∀ k, t.dst.read k = none) ∧
          t.status.err = true ∧ t.status.errCode = errorCode e ∧ t.errPos = pos

/-- R5 (93_implementation_defined.md U14, log entry 16): a configuration that breaks a constraint is refused, whatever the turn. -/
def Obligations.IllegalConfigurationIsRefused : Prop :=
  ∀ s : State, (s.params.srcCap = 0 ∨ s.params.dstCap < outMax s.params.srcCap ∨
      2 ^ s.params.lenW ≤ s.params.dstCap ∨ 2 ^ s.params.lenW ≤ s.params.srcCap) →
    step s = .refused .badParams

/-! ## The shared units (40_alphabet_padding.md, 30_encoding.md) -/

/-- R70 to R73: the contents of the four ROMs. -/
def Obligations.RomContentsAreAsTabulated : Prop :=
  (rom .a16).length = 16 ∧ (rom .a32).length = 32 ∧ (rom .a64s).length = 64 ∧ (rom .a64u).length = 64 ∧
  (∀ k, k < 16 → (rom .a16)[k]? = some (BitVec.ofNat 8 (if k < 10 then 0x30 + k else 0x41 + (k - 10)))) ∧
  (∀ k, k < 32 → (rom .a32)[k]? = some (BitVec.ofNat 8 (if k < 26 then 0x41 + k else 0x32 + (k - 26)))) ∧
  (∀ k, k < 62 → (rom .a64s)[k]? = some (BitVec.ofNat 8
    (if k < 26 then 0x41 + k else if k < 52 then 0x61 + (k - 26) else 0x30 + (k - 52)))) ∧
  (∀ k, k < 62 → (rom .a64u)[k]? = (rom .a64s)[k]?) ∧
  (rom .a64s)[62]? = some 0x2B ∧ (rom .a64s)[63]? = some 0x2F ∧
  (rom .a64u)[62]? = some 0x2D ∧ (rom .a64u)[63]? = some 0x5F

/-- R75: "`AlphDec(sel, c) = Val(i)` exactly when `ROM_sel[i] = c`"; `Pad` exactly for `=` of base32 and base64. -/
def Obligations.ReverseLookupInvertsTheRoms : Prop :=
  ∀ (sel : Alphabet) (c : Byte),
    (∀ k, alphDec sel c = .val k ↔ (rom sel)[k]? = some c) ∧
    (alphDec sel c = .pad ↔ (c = 0x3D ∧ sel ≠ .a16))

/-- R76: the fold is the subtraction of `0x20` from the lower-case letters; after it exactly the digits and the letters `A..F`, `a..f` are accepted, with these values. -/
def Obligations.FoldedHexDigitsAreExactlyTheAccepted : Prop :=
  ∀ c : Byte, (fold c).toNat = (if 0x61 ≤ c.toNat ∧ c.toNat ≤ 0x7A then c.toNat - 0x20 else c.toNat) ∧
    alphDec .a16 (fold c) =
    if 0x30 ≤ c.toNat ∧ c.toNat ≤ 0x39 then .val (c.toNat - 0x30)
    else if 0x41 ≤ c.toNat ∧ c.toNat ≤ 0x46 then .val (c.toNat - 0x37)
    else if 0x61 ≤ c.toNat ∧ c.toNat ≤ 0x66 then .val (c.toNat - 0x57)
    else .invalid

/-- R80, R81, R82: the tables of the padding_generator, and that the data positions are the first `DataSyms`. -/
def Obligations.PaddingTablesAreAsTabulated : Prop :=
  dataSyms .base16 1 = 2 ∧ padCount .base16 1 = 0 ∧
  [1, 2, 3, 4, 5].map (dataSyms .base32) = [2, 4, 5, 7, 8] ∧ [1, 2, 3, 4, 5].map (padCount .base32) = [6, 4, 3, 1, 0] ∧
  [1, 2, 3].map (dataSyms .base64) = [2, 3, 4] ∧ [1, 2, 3].map (padCount .base64) = [2, 1, 0] ∧
  [0, 1, 2, 3, 4, 5, 6, 7, 8].map (bytesFrom .base32) = [0, 0, 1, 1, 2, 3, 3, 4, 5] ∧
  [0, 1, 2, 3, 4].map (bytesFrom .base64) = [0, 0, 1, 2, 3] ∧
  ∀ c j r, j < symCount c → 1 ≤ r → r ≤ rawCount c → (isData c j r = true ↔ j < dataSyms c r)

/-- R59: the eight indices of a base32 group, as the field of the group string and as the table's shifts and masks of the
group's bytes; the five bytes of a full window as the inverse table's shifts and masks of its indices. -/
def Obligations.Base32GroupTablesAreAsTabulated : Prop :=
  (∀ b0 b1 b2 b3 b4 : Byte,
    (List.range 8).map (symbolIndex .base32 [b0, b1, b2, b3, b4]) =
      [(b0 >>> 3).toNat, (((b0 &&& 0x07) <<< 2) ||| (b1 >>> 6)).toNat, ((b1 >>> 1) &&& 0x1F).toNat,
       (((b1 &&& 0x01) <<< 4) ||| (b2 >>> 4)).toNat, (((b2 &&& 0x0F) <<< 1) ||| (b3 >>> 7)).toNat,
       ((b3 >>> 2) &&& 0x1F).toNat, (((b3 &&& 0x03) <<< 3) ||| (b4 >>> 5)).toNat, (b4 &&& 0x1F).toNat] ∧
    ∀ j, j < 8 → symbolIndex .base32 [b0, b1, b2, b3, b4] j =
      (b0.toNat * 2 ^ 32 + b1.toNat * 2 ^ 24 + b2.toNat * 2 ^ 16 + b3.toNat * 2 ^ 8 + b4.toNat) / 2 ^ (35 - 5 * j) % 32) ∧
  (∀ s0 s1 s2 s3 s4 s5 s6 s7 : Byte,
    s0 < 32 → s1 < 32 → s2 < 32 → s3 < 32 → s4 < 32 → s5 < 32 → s6 < 32 → s7 < 32 →
    windowBytes .base32 ([s0, s1, s2, s3, s4, s5, s6, s7].map BitVec.toNat) =
      [(s0 <<< 3) ||| (s1 >>> 2), ((s1 &&& 0x03) <<< 6) ||| (s2 <<< 1) ||| (s3 >>> 4),
       ((s3 &&& 0x0F) <<< 4) ||| (s4 >>> 1), ((s4 &&& 0x01) <<< 7) ||| (s5 <<< 2) ||| (s6 >>> 3),
       ((s6 &&& 0x07) <<< 5) ||| s7])

/-- R60: the four indices of a base64 group, as the field of the group string and as the source's formulas; the three bytes
of a full window as the inverse table's shifts and masks of its indices. -/
def Obligations.Base64GroupTablesAreTheFormulas : Prop :=
  (∀ b0 b1 b2 : Byte,
    (List.range 4).map (symbolIndex .base64 [b0, b1, b2]) =
      [(b0 >>> 2).toNat, (((b0 &&& 3) <<< 4) ||| (b1 >>> 4)).toNat,
       (((b1 &&& 0xF) <<< 2) ||| (b2 >>> 6)).toNat, (b2 &&& 0x3F).toNat] ∧
    ∀ j, j < 4 → symbolIndex .base64 [b0, b1, b2] j =
      (b0.toNat * 2 ^ 16 + b1.toNat * 2 ^ 8 + b2.toNat) / 2 ^ (18 - 6 * j) % 64) ∧
  (∀ s0 s1 s2 s3 : Byte, s0 < 64 → s1 < 64 → s2 < 64 → s3 < 64 →
    windowBytes .base64 ([s0, s1, s2, s3].map BitVec.toNat) =
      [(s0 <<< 2) ||| (s1 >>> 4), ((s1 &&& 0x0F) <<< 4) ||| (s2 >>> 2), ((s2 &&& 0x03) <<< 6) ||| s3])

/-! ## Base16 (41_base16.md) -/

/-- R90: the command byte; `DST[2i] = ROM_A16[SRC[i] >> 4]`, `DST[2i+1] = ROM_A16[SRC[i] & 0x0F]`, `DST_LEN = 2n`, success;
`IllegalCommand` for `SRC_LEN > SRC_CAP` only. -/
def Obligations.B16EncWritesTwoSymbolsPerByte : Prop :=
  encode .b16enc = 0x00 ∧
  (∀ s : State, s.params.srcCap < s.srcLen → ∃ t, exec .b16enc s = .next t ∧ s.EndsErr 3 0 t) ∧
  ∀ (s : State) (input : List Byte), s.Loaded input →
    ∃ t out, exec .b16enc s = .next t ∧ s.EndsOk out t ∧ out.length = 2 * input.length ∧
      ∀ (k : Nat) (b : Byte), input[k]? = some b →
        out[2 * k]? = (rom .a16)[(b >>> 4).toNat]? ∧ out[2 * k + 1]? = (rom .a16)[(b &&& 0x0F).toNat]?

/-- R92: an even number of hex digits gives `DST[k] = (hi << 4) | lo` and `DST_LEN = n/2`, success. -/
def Obligations.B16DecJoinsNibbles : Prop :=
  ∀ (s : State) (input : List Byte) (indices : List Nat), s.Loaded input → input.length % 2 = 0 →
    indices.length = input.length → SymbolsOf .a16 (input.map fold) indices →
    ∃ t out, exec .b16dec s = .next t ∧ s.EndsOk out t ∧ out.length = input.length / 2 ∧
      ∀ k hi lo, indices[2 * k]? = some hi → indices[2 * k + 1]? = some lo →
        out[k]? = some (BitVec.ofNat 8 ((hi <<< 4) ||| lo))

/-- R93: an odd length is `MalformedLength` at `SRC_LEN`, before any symbol is judged; an even one is not, and a length of 0
gives an empty output with success. -/
def Obligations.B16DecChecksForAnEvenLength : Prop :=
  ∀ (s : State) (input : List Byte), s.Loaded input →
    ∃ t, exec .b16dec s = .next t ∧
      (if input.length % 2 = 1 then s.EndsErr 2 s.srcLen t else t.status.errCode ≠ 2) ∧
      (input.length = 0 → s.EndsOk [] t)

/-- R94: of an even length, the first byte that is no hex digit is `InvalidSymbol` at its position, and no output is delivered. -/
def Obligations.B16DecReportsTheFirstInvalidSymbol : Prop :=
  ∀ (s : State) (input : List Byte) (p : Nat), s.Loaded input → input.length % 2 = 0 →
    (∃ b, input[p]? = some b ∧ alphDec .a16 (fold b) = .invalid) →
    (∀ q b, q < p → input[q]? = some b → alphDec .a16 (fold b) ≠ .invalid) →
    ∃ t, exec .b16dec s = .next t ∧ s.EndsErr 1 p t

/-- R96: decoding what `B16ENC` gave, in upper or in lower case, gives the bytes back. -/
def Obligations.Base16RoundTrip : Prop :=
  ∀ (s : State) (bytes text : List Byte), b16Enc bytes = .ok text →
    (s.Loaded text ∨ s.Loaded (text.map fun c => if 0x41 ≤ c.toNat ∧ c.toNat ≤ 0x46 then c + 0x20 else c)) →
    ∃ t, exec .b16dec s = .next t ∧ s.EndsOk bytes t

/-- R96: a text that `B16DEC` accepts encodes back to its upper case: the decoder loses nothing but case. -/
def Obligations.Base16DecodeLosesOnlyCase : Prop :=
  ∀ text bytes : List Byte, b16Dec text = .ok bytes → b16Enc bytes = .ok (text.map fold)

/-! ## Base32 (42_base32.md) -/

/-- R100: the command byte; every position of the output of `B32ENC`: the alphabet symbol of the group's 5-bit field, or `=` where the
field's first bit lies in a fill byte; `DST_LEN = 8*ceil(n/5)`, success; `IllegalCommand` for
`SRC_LEN > SRC_CAP` only. -/
def Obligations.B32EncWritesFieldsAndPads : Prop :=
  encode .b32enc = 0x02 ∧
  (∀ s : State, s.params.srcCap < s.srcLen → ∃ t, exec .b32enc s = .next t ∧ s.EndsErr 3 0 t) ∧
  ∀ (s : State) (input : List Byte), s.Loaded input →
    ∃ t out, exec .b32enc s = .next t ∧ s.EndsOk out t ∧ out.length = 8 * ((input.length + 4) / 5) ∧
      ∀ g j, 5 * g < input.length → j < 8 →
        let b := fun k => (input.getD (5 * g + k) 0).toNat
        let v := b 0 * 2 ^ 32 + b 1 * 2 ^ 24 + b 2 * 2 ^ 16 + b 3 * 2 ^ 8 + b 4
        out[8 * g + j]? =
          if 5 * j / 8 < min 5 (input.length - 5 * g) then (rom .a32)[v / 2 ^ (35 - 5 * j) % 32]? else some 0x3D

/-- R105: a length that is no multiple of 8 is `MalformedLength` at `SRC_LEN`, before any symbol is judged; a multiple is not. -/
def Obligations.B32DecChecksForWholeWindows : Prop :=
  ∀ (s : State) (input : List Byte), s.Loaded input →
    ∃ t, exec .b32dec s = .next t ∧
      if input.length % 8 ≠ 0 then s.EndsErr 2 s.srcLen t else t.status.errCode ≠ 2

/-- R104, R107: the symbols before the first `=`, or all of them where there is none, give the bytes they determine whole,
most significant bit first; what follows the `=` is ignored; success. -/
def Obligations.B32DecDeliversTheBytesBeforeTheFirstPad : Prop :=
  ∀ (s : State) (input : List Byte) (indices : List Nat), s.Loaded input → input.length % 8 = 0 →
    SymbolsOf .a32 input indices → (indices.length = input.length ∨ input[indices.length]? = some 0x3D) →
    ∃ t out, exec .b32dec s = .next t ∧ s.EndsOk out t ∧ out.length = 5 * indices.length / 8 ∧
      ∀ k, k < out.length → out[k]? =
        some (BitVec.ofNat 8 (concatBits 5 indices / 2 ^ (5 * indices.length - 8 * (k + 1))))

/-- R106: an invalid byte with only alphabet symbols before it is `InvalidSymbol` at its position, and no output is delivered. -/
def Obligations.B32DecReportsTheFirstInvalidSymbol : Prop :=
  ∀ (s : State) (input : List Byte) (indices : List Nat), s.Loaded input → input.length % 8 = 0 →
    SymbolsOf .a32 input indices → (∃ b, input[indices.length]? = some b ∧ alphDec .a32 b = .invalid) →
    ∃ t, exec .b32dec s = .next t ∧ s.EndsErr 1 indices.length t

/-- R109: decoding what `B32ENC` gave gives the bytes back. -/
def Obligations.Base32RoundTrip : Prop :=
  ∀ (s : State) (bytes text : List Byte), b32Enc bytes = .ok text → s.Loaded text →
    ∃ t, exec .b32dec s = .next t ∧ s.EndsOk bytes t

/-! ## Base64 (43_base64.md) -/

/-- R120, R130: the command byte; every position of the output of `B64ENC` under every combination of flags: the symbol of the
group's 6-bit field in the selected alphabet; at a pad position `=`, or nothing with `NO_PADDING`; with `WRAP` a CR LF before
every group whose number is a positive multiple of 19; the length; success; `IllegalCommand` for `SRC_LEN > SRC_CAP` only. -/
def Obligations.B64EncWritesFieldsPadsAndBreaks : Prop :=
  (∀ u np w : Bool, encode (.b64enc u np w) =
    BitVec.ofNat 8 (0x04 ||| (u.toNat <<< 3) ||| (np.toNat <<< 4) ||| (w.toNat <<< 5))) ∧
  (∀ (s : State) (u np w : Bool), s.params.srcCap < s.srcLen →
    ∃ t, exec (.b64enc u np w) s = .next t ∧ s.EndsErr 3 0 t) ∧
  ∀ (s : State) (u np w : Bool) (input : List Byte), s.Loaded input →
    let n := input.length
    let groups := (n + 2) / 3
    let breaks := fun g : Nat => if w then g / 19 else 0
    ∃ t out, exec (.b64enc u np w) s = .next t ∧ s.EndsOk out t ∧
      out.length = (if np then (4 * n + 2) / 3 else 4 * groups) + 2 * breaks (groups - 1) ∧
      (∀ g j, 3 * g < n → j < 4 →
        let b := fun k => (input.getD (3 * g + k) 0).toNat
        let v := b 0 * 2 ^ 16 + b 1 * 2 ^ 8 + b 2
        let at' := 4 * g + j + 2 * breaks g
        if 6 * j / 8 < min 3 (n - 3 * g) then
          out[at']? = (rom (if u then .a64u else .a64s))[v / 2 ^ (18 - 6 * j) % 64]?
        else np = false → out[at']? = some 0x3D) ∧
      (∀ g, w = true → 1 ≤ g → g % 19 = 0 → 3 * g < n →
        out[4 * g + 2 * breaks g - 2]? = some 0x0D ∧ out[4 * g + 2 * breaks g - 1]? = some 0x0A)

/-- R124: the output of `B64ENC` holds no `+` and no `/` with `URL_SAFE`, and no `-` and no `_` without it. -/
def Obligations.Base64AlphabetExclusivity : Prop :=
  ∀ (u np w : Bool) (input out : List Byte), b64Enc u np w input = .ok out →
    ∀ c ∈ out, if u then c ≠ 0x2B ∧ c ≠ 0x2F else c ≠ 0x2D ∧ c ≠ 0x5F

/-- R131 (b), R122: stripping a wrapped encoding gives the unwrapped one, and `NO_PADDING` removes exactly the `=`. -/
def Obligations.Base64WrapAndPaddingOnlyAddBytes : Prop :=
  ∀ (u np w : Bool) (input full : List Byte), b64Enc u false true input = .ok full →
    b64Enc u np w input = .ok (full.filter fun c =>
      (w || (c != 0x0D && c != 0x0A)) && (!np || c != 0x3D))

/-- R126: the stripped text is every byte but tab, newline, carriage return and space, in order, each with its position. -/
def Obligations.Base64StripRemovesExactlyWhitespace : Prop :=
  ∀ input : List Byte,
    (∀ b p, (b, p) ∈ strippedText input ↔
      (input[p]? = some b ∧ b ≠ 0x09 ∧ b ≠ 0x0A ∧ b ≠ 0x0D ∧ b ≠ 0x20)) ∧
    List.Pairwise (fun x y => x.2 < y.2) (strippedText input)

/-- R127: a stripped length of 1 modulo 4 is `MalformedLength` at the unstripped `SRC_LEN`, before any symbol is judged; any
other is accepted, and 0 gives an empty output with success. -/
def Obligations.B64DecChecksTheStrippedLength : Prop :=
  ∀ (s : State) (u : Bool) (input : List Byte), s.Loaded input →
    ∃ t, exec (.b64dec u) s = .next t ∧
      (if (strippedText input).length % 4 = 1 then s.EndsErr 2 s.srcLen t else t.status.errCode ≠ 2) ∧
      ((strippedText input).length = 0 → s.EndsOk [] t)

/-- R125, R127, R128: of the stripped text, the symbols before the first `=`, or all of them where there is none, give the
bytes they determine whole, most significant bit first; a last window of 2 or 3 is accepted; success. -/
def Obligations.B64DecDeliversTheBytesBeforeTheFirstPad : Prop :=
  ∀ (s : State) (u : Bool) (input : List Byte) (indices : List Nat), s.Loaded input →
    let text := (strippedText input).map Prod.fst
    text.length % 4 ≠ 1 → SymbolsOf (base64Alphabet u) text indices →
    (indices.length = text.length ∨ text[indices.length]? = some 0x3D) →
    ∃ t out, exec (.b64dec u) s = .next t ∧ s.EndsOk out t ∧ out.length = 6 * indices.length / 8 ∧
      ∀ k, k < out.length → out[k]? =
        some (BitVec.ofNat 8 (concatBits 6 indices / 2 ^ (6 * indices.length - 8 * (k + 1))))

/-- R128, R146: an invalid byte of the stripped text with only alphabet symbols before it is `InvalidSymbol` at its position in
the source buffer as the host wrote it, and no output is delivered. -/
def Obligations.B64DecReportsTheFirstInvalidSymbol : Prop :=
  ∀ (s : State) (u : Bool) (input : List Byte) (indices : List Nat) (b : Byte) (p : Nat), s.Loaded input →
    let text := strippedText input
    text.length % 4 ≠ 1 → SymbolsOf (base64Alphabet u) (text.map Prod.fst) indices →
    text[indices.length]? = some (b, p) → alphDec (base64Alphabet u) b = .invalid →
    ∃ t, exec (.b64dec u) s = .next t ∧ s.EndsErr 1 p t

/-- R131 (a): decoding what `B64ENC` gave, under every combination of flags and with the same `URL_SAFE`, gives the bytes back. -/
def Obligations.Base64RoundTrip : Prop :=
  ∀ (s : State) (u np w : Bool) (bytes text : List Byte), b64Enc u np w bytes = .ok text → s.Loaded text →
    ∃ t, exec (.b64dec u) s = .next t ∧ s.EndsOk bytes t

/-- R131 (c): decoding a text and decoding it stripped give the same bytes, and each succeeds where the other does. -/
def Obligations.Base64DecodeIgnoresWhitespace : Prop :=
  ∀ (u : Bool) (text bytes : List Byte),
    b64Dec u text = .ok bytes ↔ b64Dec u (text.filter fun c => !isStripped c) = .ok bytes

/-- R131 (d): the other alphabet decodes an encoding that holds none of `+ / - _`, and reports `InvalidSymbol` at the first of
them otherwise. -/
def Obligations.Base64OtherAlphabetAgreesOrReports : Prop :=
  ∀ (s : State) (u np w : Bool) (bytes text : List Byte), b64Enc u np w bytes = .ok text → s.Loaded text →
    let special := fun c : Byte => c == 0x2B || c == 0x2F || c == 0x2D || c == 0x5F
    ∃ t, exec (.b64dec (!u)) s = .next t ∧
      match text.findIdx? special with
      | none => s.EndsOk bytes t
      | some p => s.EndsErr 1 p t
end

