-- ==== Sys2Proof/Laws/Groups.lean ====
section
/-! SUPPORT. The small lemmas of the group and window walks. -/

namespace Sys2Proof.Machine

@[simp] theorem groupsOf_nil {α : Type} {size : Nat} (h : 0 < size) : groupsOf size ([] : List α) = [] := by
  have : ceilDiv 0 size = 0 := Nat.div_eq_of_lt (by omega)
  simp [groupsOf, this]

/-- A whole group at the front is the first group. -/
theorem groupsOf_append {α : Type} {size : Nat} (h : 0 < size) (front rest : List α) (hf : front.length = size) :
    groupsOf size (front ++ rest) = front :: groupsOf size rest := by
  have hc : ceilDiv (front ++ rest).length size = ceilDiv rest.length size + 1 := by
    simp only [ceilDiv, List.length_append, hf]
    rw [show size + rest.length + size - 1 = (rest.length + size - 1) + size by omega, Nat.add_div_right _ h]
  simp only [groupsOf, hc, List.range_succ_eq_map, List.map_cons, List.map_map]
  congr 1
  · simp [← hf]
  · refine List.map_congr_left fun g _ => ?_
    have : size * (g + 1) = front.length + size * g := by rw [hf, Nat.mul_succ]; omega
    have h2 : List.drop (front.length + size * g) front = [] := List.drop_eq_nil_of_le (by omega)
    simp [Function.comp, this, List.drop_append, h2]

/-- A short non-empty sequence is one group. -/
theorem groupsOf_short {α : Type} {size : Nat} (xs : List α) (h0 : 0 < xs.length) (h : xs.length ≤ size) :
    groupsOf size xs = [xs] := by
  have : ceilDiv xs.length size = 1 := by
    unfold ceilDiv
    rw [show xs.length + size - 1 = (xs.length - 1) + size by omega, Nat.add_div_right _ (by omega),
      Nat.div_eq_of_lt (by omega)]
  simp [groupsOf, this, h]

theorem scanWindow_val {sel : Alphabet} {b : Byte} {x : Nat} (h : alphDec sel b = .val x) (p : Nat)
    (rest : List (Byte × Nat)) :
    scanWindow sel ((b, p) :: rest) = (scanWindow sel rest).map (x :: ·) := by
  simp only [scanWindow, h]
  cases scanWindow sel rest <;> rfl

theorem scanWindow_pad {sel : Alphabet} {b : Byte} (h : alphDec sel b = .pad) (p : Nat) (rest : List (Byte × Nat)) :
    scanWindow sel ((b, p) :: rest) = .ok [] := by simp [scanWindow, h]

theorem scanWindow_invalid {sel : Alphabet} {b : Byte} (h : alphDec sel b = .invalid) (p : Nat)
    (rest : List (Byte × Nat)) : scanWindow sel ((b, p) :: rest) = .error p := by simp [scanWindow, h]

/-- A window never yields more indices than it has symbols. -/
theorem scanWindow_length {sel : Alphabet} {w : List (Byte × Nat)} {is : List Nat} (h : scanWindow sel w = .ok is) :
    is.length ≤ w.length := by
  induction w generalizing is with
  | nil => simp_all [scanWindow]
  | cons x w ih =>
    obtain ⟨b, p⟩ := x
    cases hb : alphDec sel b with
    | val i =>
      rw [scanWindow_val hb] at h
      cases hw : scanWindow sel w with
      | ok js =>
        have : is = i :: js := by simpa [hw, Except.map] using h.symm
        simpa [this] using ih hw
      | error q => simp [hw, Except.map] at h
    | pad => simp_all [scanWindow_pad hb]
    | invalid => simp_all [scanWindow_invalid hb]

@[simp] theorem windowBytes_length (c : Codec) (is : List Nat) : (windowBytes c is).length = bytesFrom c is.length := by
  simp [windowBytes]

end Sys2Proof.Machine
end

