-- ==== Sys2Proof/Laws/Memory.lean ====
section
/-! SUPPORT. The laws of a buffer: read after write, and that every memory operation keeps the canonical form. -/

namespace Sys2Proof.Machine

@[simp] theorem Memory.read_nil (a : Nat) : Memory.read [] a = none := rfl

theorem Memory.read_cons (k : Nat) (b : Byte) (m : Memory) (a : Nat) :
    Memory.read ((k, b) :: m) a = if k = a then some b else Memory.read m a := rfl

/-- A read after a write of the same cell gives the byte written, and a write leaves every other cell alone. -/
theorem Memory.read_write (m : Memory) (a : Nat) (b : Byte) (k : Nat) :
    (Memory.write m a b).read k = if k = a then some b else m.read k := by
  induction m with
  | nil => simp only [Memory.write, Memory.read_cons, Memory.read_nil, eq_comm]
  | cons cell m ih =>
    obtain ⟨j, c⟩ := cell
    simp only [Memory.write]
    split_ifs <;> simp only [Memory.read_cons, ih] <;> split_ifs <;> first | rfl | omega

/-- The listed indices after a write: those before, and the one written. -/
theorem Memory.mem_write {m : Memory} {a : Nat} {b : Byte} {x : Host.Cell} (h : x ∈ m.write a b) :
    x = (a, b) ∨ x ∈ m := by
  induction m with
  | nil => simpa [Memory.write] using h
  | cons cell m ih =>
    obtain ⟨j, c⟩ := cell
    simp only [Memory.write] at h
    split_ifs at h
    · simpa using h
    · rcases List.mem_cons.1 h with h | h <;> simp [h]
    · rcases List.mem_cons.1 h with h | h
      · simp [h]
      · rcases ih h with h | h <;> simp [h]

/-- A write keeps the canonical form. -/
theorem Memory.write_wf {m : Memory} (h : m.wf) (a : Nat) (b : Byte) : (m.write a b).wf := by
  induction m with
  | nil => simp [Memory.wf, Memory.write]
  | cons cell m ih =>
    obtain ⟨j, c⟩ := cell
    obtain ⟨hj, hm⟩ := List.pairwise_cons.1 h
    simp only [Memory.write]
    split_ifs with h1 h2
    · refine List.pairwise_cons.2 ⟨fun x hx => ?_, h⟩
      rcases List.mem_cons.1 hx with rfl | hx
      · exact h1
      · exact h1.trans (hj x hx)
    · exact List.pairwise_cons.2 ⟨fun x hx => h2 ▸ hj x hx, hm⟩
    · refine List.pairwise_cons.2 ⟨fun x hx => ?_, ih hm⟩
      rcases Memory.mem_write hx with rfl | hx
      · show j < a; omega
      · exact hj x hx

/-- The cells of a stored byte sequence. -/
theorem Memory.read_bytesAt (a : Nat) (bs : List Byte) (k : Nat) :
    (Memory.bytesAt a bs).read k = if a ≤ k then bs[k - a]? else none := by
  induction bs generalizing a with
  | nil => simp [Memory.bytesAt]
  | cons b bs ih =>
    simp only [Memory.bytesAt, Memory.read_cons, ih]
    rcases Nat.lt_trichotomy k a with h | h | h
    · rw [if_neg (by omega), if_neg (by omega), if_neg (by omega)]
    · subst h; simp
    · rw [if_neg (by omega), if_pos (by omega), if_pos (by omega), show k - a = (k - (a + 1)) + 1 by omega,
        List.getElem?_cons_succ]

/-- The output buffer of a successful completion: cell `k` holds the `k`-th output byte, and there is no other. -/
@[simp] theorem Memory.read_bytesAt_zero (bs : List Byte) (k : Nat) : (Memory.bytesAt 0 bs).read k = bs[k]? := by
  simp [Memory.read_bytesAt]

/-- The indices of a stored byte sequence. -/
theorem Memory.map_fst_bytesAt (a : Nat) (bs : List Byte) :
    (Memory.bytesAt a bs).map Prod.fst = List.range' a bs.length := by
  induction bs generalizing a with
  | nil => rfl
  | cons b bs ih => simp [Memory.bytesAt, ih, List.range'_succ]

/-- A stored byte sequence is canonical. -/
theorem Memory.bytesAt_wf (a : Nat) (bs : List Byte) : (Memory.bytesAt a bs).wf := by
  have h : List.Pairwise (· < ·) ((Memory.bytesAt a bs).map Prod.fst) := by
    rw [Memory.map_fst_bytesAt]; exact List.pairwise_lt_range'
  exact List.pairwise_map.1 h

/-- Both buffers of a completion, of a launch and of reset are canonical where the source buffer is. -/
theorem State.complete_wf (s : State) (r : Result) (h : s.src.wf) : (s.complete r).src.wf ∧ (s.complete r).dst.wf := by
  cases r with
  | ok out => exact ⟨h, Memory.bytesAt_wf 0 out⟩
  | err e p => exact ⟨h, List.Pairwise.nil⟩

theorem State.reset_memory_wf : State.reset.src.wf ∧ State.reset.dst.wf := ⟨List.Pairwise.nil, List.Pairwise.nil⟩

end Sys2Proof.Machine
end

