-- ==== Sys2Proof/Laws/State.lean ====
section
/-! SUPPORT. One lemma per field per update of State, true by rfl, so that no proof unfolds a record update. -/

namespace Sys2Proof.Machine

variable (s : State) (c : Byte) (out : List Byte) (e : ErrorCause) (pos : Nat)

@[simp] theorem State.launch_cmd : (s.launch c).cmd = c := rfl
@[simp] theorem State.launch_srcLen : (s.launch c).srcLen = s.srcLen := rfl
@[simp] theorem State.launch_dstLen : (s.launch c).dstLen = 0 := rfl
@[simp] theorem State.launch_status : (s.launch c).status = statusBusy := rfl
@[simp] theorem State.launch_errPos : (s.launch c).errPos = 0 := rfl
@[simp] theorem State.launch_src : (s.launch c).src = s.src := rfl
@[simp] theorem State.launch_dst : (s.launch c).dst = [] := rfl
@[simp] theorem State.launch_params : (s.launch c).params = s.params := rfl
@[simp] theorem State.launch_epoch : (s.launch c).epoch = s.epoch + 1 := rfl
@[simp] theorem State.launch_turns : (s.launch c).turns = s.turns := rfl

@[simp] theorem State.completeOk_cmd : (s.completeOk out).cmd = s.cmd := rfl
@[simp] theorem State.completeOk_srcLen : (s.completeOk out).srcLen = s.srcLen := rfl
@[simp] theorem State.completeOk_dstLen : (s.completeOk out).dstLen = out.length := rfl
@[simp] theorem State.completeOk_status : (s.completeOk out).status = statusOk := rfl
@[simp] theorem State.completeOk_errPos : (s.completeOk out).errPos = 0 := rfl
@[simp] theorem State.completeOk_src : (s.completeOk out).src = s.src := rfl
@[simp] theorem State.completeOk_dst : (s.completeOk out).dst = Memory.bytesAt 0 out := rfl
@[simp] theorem State.completeOk_params : (s.completeOk out).params = s.params := rfl
@[simp] theorem State.completeOk_epoch : (s.completeOk out).epoch = s.epoch := rfl
@[simp] theorem State.completeOk_turns : (s.completeOk out).turns = s.turns := rfl

@[simp] theorem State.completeErr_cmd : (s.completeErr e pos).cmd = s.cmd := rfl
@[simp] theorem State.completeErr_srcLen : (s.completeErr e pos).srcLen = s.srcLen := rfl
@[simp] theorem State.completeErr_dstLen : (s.completeErr e pos).dstLen = 0 := rfl
@[simp] theorem State.completeErr_status : (s.completeErr e pos).status = statusErr e := rfl
@[simp] theorem State.completeErr_errPos : (s.completeErr e pos).errPos = pos := rfl
@[simp] theorem State.completeErr_src : (s.completeErr e pos).src = s.src := rfl
@[simp] theorem State.completeErr_dst : (s.completeErr e pos).dst = [] := rfl
@[simp] theorem State.completeErr_params : (s.completeErr e pos).params = s.params := rfl
@[simp] theorem State.completeErr_epoch : (s.completeErr e pos).epoch = s.epoch := rfl
@[simp] theorem State.completeErr_turns : (s.completeErr e pos).turns = s.turns := rfl

@[simp] theorem State.resetEvent_params : s.resetEvent.params = s.params := rfl
@[simp] theorem State.resetEvent_turns : s.resetEvent.turns = s.turns := rfl
@[simp] theorem State.resetEvent_epoch : s.resetEvent.epoch = s.epoch + 1 := rfl
@[simp] theorem State.resetEvent_src : s.resetEvent.src = [] := rfl
@[simp] theorem State.resetEvent_dst : s.resetEvent.dst = [] := rfl

@[simp] theorem State.complete_ok : s.complete (.ok out) = s.completeOk out := rfl
@[simp] theorem State.complete_err : s.complete (.err e pos) = s.completeErr e pos := rfl

/-- An access that is dropped or not changes no field that the written state does not change. -/
theorem State.unlessBusy_cases (t : State) :
    (s.status.busy = true ∧ s.unlessBusy t = s) ∨ (s.status.busy = false ∧ s.unlessBusy t = t) := by
  cases h : s.status.busy <;> simp [State.unlessBusy, h]

end Sys2Proof.Machine
end

