-- ==== Sys2Proof/Laws/Ops.lean ====
section
/-! SUPPORT. What each shared operation of the machine can do, said once. -/

namespace Sys2Proof.Machine

/-- Every operation's meaning is the completion with the result of its unit (60_exceptions.md R144). -/
theorem exec_eq_complete (i : Instr) (s : State) : exec i s = .next (s.complete (s.resultOf (unitResult i))) := by
  cases i <;> rfl

@[simp] theorem State.input_length (s : State) : s.input.length = s.srcLen := by simp [State.input]

/-- The input of a loaded state. -/
theorem State.Loaded.input_eq {s : State} {bytes : List Byte} (h : s.Loaded bytes) : s.input = bytes := by
  obtain ⟨hlen, -, hcell⟩ := h
  refine List.ext_getElem (by simp [hlen]) fun k h1 h2 => ?_
  simp [State.input, State.srcByte, hcell k h2, h2]

/-- The result of a unit on a loaded state. -/
theorem State.Loaded.resultOf_eq {s : State} {bytes : List Byte} (h : s.Loaded bytes) (unit : List Byte → Result) :
    s.resultOf unit = unit bytes := by
  have hcap : ¬ s.srcLen > s.params.srcCap := by have := h.1; have := h.2.1; omega
  simp [State.resultOf, hcap, h.input_eq]

/-- An over-long input, by 60_exceptions.md R143. -/
theorem State.resultOf_overlong {s : State} (h : s.params.srcCap < s.srcLen) (unit : List Byte → Result) :
    s.resultOf unit = .err .illegalCommand 0 := by simp [State.resultOf, h]

/-- What a completion with success leaves. -/
theorem State.completeOk_ends (s : State) (out : List Byte) : s.EndsOk out (s.completeOk out) :=
  ⟨rfl, fun k => by simp, rfl, rfl, rfl, rfl, rfl, rfl, rfl, rfl⟩

/-- What a completion with error leaves. -/
theorem State.completeErr_ends (s : State) (e : ErrorCause) (pos : Nat) :
    s.EndsErr (errorCode e) pos (s.completeErr e pos) :=
  ⟨rfl, fun _ => rfl, rfl, rfl, rfl, rfl, rfl, rfl, rfl, rfl⟩

/-- What a completion leaves, for either result. -/
theorem State.complete_ends (s : State) (r : Result) : s.EndsWith r (s.complete r) := by
  cases r with
  | ok out => exact s.completeOk_ends out
  | err e pos => exact s.completeErr_ends e pos

/-- An access beyond the capacity stops whatever it would do. -/
theorem withCell_of_le {k cap : Nat} (h : cap ≤ k) (o : Host.Outcome State Fault Refusal) :
    withCell k cap o = .fault (.noSuchCell k) := if_neg (Nat.not_lt.2 h)

/-- A length of more than `LEN_W` bits stops whatever it would do. -/
theorem State.withLength_of_le {s : State} {n : Nat} (h : 2 ^ s.params.lenW ≤ n) (t : State) :
    s.withLength n t = .refused (.valueTooWide n) := if_neg (Nat.not_lt.2 h)

/-- A buffer read that answers a byte reads a listed cell. -/
theorem Memory.mem_of_read {m : Memory} {k : Nat} {b : Byte} (h : m.read k = some b) : (k, b) ∈ m := by
  induction m with
  | nil => simp at h
  | cons c m ih =>
    obtain ⟨j, d⟩ := c
    rw [Memory.read_cons] at h
    split at h <;> simp_all

/-- A buffer read of a listed index answers a byte. -/
theorem Memory.isSome_read_iff (m : Memory) (k : Nat) : (m.read k).isSome ↔ k ∈ m.map Prod.fst := by
  induction m with
  | nil => simp
  | cons c m ih =>
    obtain ⟨j, d⟩ := c
    rw [Memory.read_cons]
    by_cases hj : j = k
    · simp [hj]
    · rw [if_neg hj, ih, List.map_cons, List.mem_cons, or_iff_right (Ne.symm hj)]

/-- Under the invariant exactly the destination cells below `DST_LEN` hold a byte (10_state.md R18). -/
theorem State.Inv.isSome_dst_iff {s : State} (h : s.Inv) (k : Nat) : (s.dst.read k).isSome ↔ k < s.dstLen := by
  rw [Memory.isSome_read_iff, h.dstCells, List.mem_range]

/-- Everything a host move can do when it answers a next state: it changes nothing, or, in an idle block, it launches,
stores a length, or stores a source byte. -/
theorem State.hostMove_cases {s t : State} {m : HostMove} (h : s.hostMove m = .next t) :
    t = s ∨ (s.status.busy = false ∧
      ((∃ c, m = .writeCmd c ∧ t = s.launch c) ∨
       (∃ n, m = .writeSrcLen n ∧ s.params.fitsLen n ∧ t = { s with srcLen := n }) ∨
       (∃ k b, m = .writeSrc k b ∧ k < s.params.srcCap ∧ t = { s with src := s.src.write k b }))) := by
  cases m with
  | writeCmd c =>
    rcases s.unlessBusy_cases (s.launch c) with ⟨hb, hu⟩ | ⟨hb, hu⟩ <;>
      simp only [State.hostMove, hu, Host.Outcome.next.injEq] at h <;> simp [hb, h.symm]
  | writeSrcLen n =>
    rcases s.unlessBusy_cases { s with srcLen := n } with ⟨hb, hu⟩ | ⟨hb, hu⟩ <;>
      simp only [State.hostMove, State.withLength, hu] at h <;> split at h <;> simp_all
  | writeSrc k b =>
    rcases s.unlessBusy_cases { s with src := s.src.write k b } with ⟨hb, hu⟩ | ⟨hb, hu⟩ <;>
      simp only [State.hostMove, withCell, hu] at h <;> split at h <;> simp_all
  | writeDstLen n => simp only [State.hostMove, State.withLength] at h; split at h <;> simp_all
  | writeErrPos n => simp only [State.hostMove, State.withLength] at h; split at h <;> simp_all
  | writeStatus b => simp_all [State.hostMove]
  | writeDst k b => simp only [State.hostMove, withCell] at h; split at h <;> simp_all
  | read p =>
    cases p <;> simp only [State.hostMove, State.hostRead, withCell] at h <;>
      first
        | exact .inl (by simpa using h.symm)
        | (split at h <;> first | exact .inl (by simpa using h.symm) | simp at h | (split at h <;> simp_all))

/-- Everything the core's turn does: a busy block completes with the result of `Exec`; an idle one stays as it is. -/
theorem coreTurn_eq (s : State) :
    coreTurn s = .next (if s.status.busy then s.complete (execResult s.cmd s.srcLen s.params.srcCap s.input) else s) := by
  unfold coreTurn
  split
  · simp only [execResult]
    split <;> simp only [*, exec_eq_complete, State.resultOf, State.complete_err]
  · rfl

/-- A step where the core has the turn. -/
theorem step_core {s : State} {rest : List Turn} (hp : s.params.WF) (hc : s.CoreNext rest) :
    step s = coreTurn { s with turns := rest } := by
  obtain ⟨cmd, srcLen, dstLen, status, errPos, src, dst, params, epoch, turns⟩ := s
  rcases hc with h | ⟨h, rfl⟩ <;> simp only at h <;> subst h <;> exact if_pos hp

/-- A step where a host move is pending. -/
theorem step_host {s : State} {m : HostMove} {rest : List Turn} (hp : s.params.WF) (ht : s.turns = .host m :: rest) :
    step s = ({ s with turns := rest } : State).hostMove m := by
  unfold step runTurn; rw [if_pos hp, ht]

/-- A step where reset is pending. -/
theorem step_reset {s : State} {rest : List Turn} (hp : s.params.WF) (ht : s.turns = .reset :: rest) :
    step s = .next ({ s with turns := rest } : State).resetEvent := by
  unfold step runTurn; rw [if_pos hp, ht]

/-- A run of one step more. -/
theorem run_succ {s t : State} (h : step s = .next t) (k : Nat) :
    Sys2Proof.core.run (k + 1) s = Sys2Proof.core.run k t := by
  have : Sys2Proof.core.step s = .next t := h
  simp only [Host.Core.run, this]

/-- A run cut in two. -/
theorem run_add {s t : State} {m : Nat} (h : Sys2Proof.core.run m s = .next t) (k : Nat) :
    Sys2Proof.core.run (m + k) s = Sys2Proof.core.run k t := by
  induction m generalizing s with
  | zero => cases h; rw [Nat.zero_add]
  | succ m ih =>
    rw [Nat.succ_add]
    cases hs : step s with
    | next u => rw [run_succ hs] at h ⊢; exact ih h
    | fault r => exact absurd h (by simp [Host.Core.run, show Sys2Proof.core.step s = .fault r from hs])
    | refused r => exact absurd h (by simp [Host.Core.run, show Sys2Proof.core.step s = .refused r from hs])

/-- Everything the byte writes of a `LOAD` or `XFER` script do in an idle block: the bytes stand from cell `o` on, every other
cell and field stays, and the turns behind them are still to come. -/
theorem run_stores (bytes : List Byte) : ∀ (o : Nat) (rest : List Turn) (s : State), s.params.WF → s.ScriptLegal →
    o + bytes.length ≤ s.params.srcCap →
    s.turns = ((bytes.zipIdx o).map fun x => Turn.host (HostMove.writeSrc x.2 x.1)) ++ rest →
    ∃ m, Sys2Proof.core.run bytes.length s = .next { s with src := m, turns := rest } ∧
      ∀ k, m.read k = if o ≤ k ∧ k < o + bytes.length then bytes[k - o]? else s.src.read k := by
  induction bytes with
  | nil =>
    intro o rest s _ _ _ h
    exact ⟨s.src, by simp at h; simp [← h, Host.Core.run], fun k => by rw [if_neg (by simp)]⟩
  | cons b bs ih =>
    intro o rest s hp hb hl ht
    simp only [List.zipIdx_cons, List.map_cons, List.cons_append, List.length_cons] at ht hl
    have hs := step_host hp ht
    simp only [State.hostMove, withCell, show o < s.params.srcCap by omega, State.unlessBusy, show s.status.busy = false from hb,
      if_true, Bool.false_eq_true, if_false] at hs
    obtain ⟨m, h1, h2⟩ := ih (o + 1) rest { s with
      src := s.src.write o b, turns := ((bs.zipIdx (o + 1)).map fun x => Turn.host (HostMove.writeSrc x.2 x.1)) ++ rest }
      hp hb (show o + 1 + bs.length ≤ s.params.srcCap by omega) rfl
    refine ⟨m, by rw [List.length_cons, run_succ hs]; exact h1, fun k => ?_⟩
    rw [h2 k, Memory.read_write]
    simp only [List.length_cons]
    split_ifs <;> first | rfl | omega | skip
    · rw [show k - o = (k - (o + 1)) + 1 by omega, List.getElem?_cons_succ]
    · simp [show k - o = 0 by omega]

/-- Everything a step can do when it answers a next state. -/
theorem step_cases {s t : State} (h : step s = .next t) :
    s.params.WF ∧
    ((∃ rest, s.CoreNext rest ∧ coreTurn { s with turns := rest } = .next t) ∨
     (∃ m rest, s.turns = .host m :: rest ∧ ({ s with turns := rest } : State).hostMove m = .next t) ∨
     (∃ rest, s.turns = .reset :: rest ∧ t = ({ s with turns := rest } : State).resetEvent)) := by
  unfold step runTurn at h
  split at h
  · rename_i hp
    refine ⟨hp, ?_⟩
    split at h
    · rename_i ht
      exact .inl ⟨[], .inr ⟨ht, rfl⟩, by simpa only [← ht] using h⟩
    · rename_i rest ht
      exact .inl ⟨rest, .inl ht, h⟩
    · rename_i m rest ht
      exact .inr (.inl ⟨m, rest, ht, h⟩)
    · rename_i rest ht
      exact .inr (.inr ⟨rest, ht, (by simpa using h.symm)⟩)
  · simp at h

end Sys2Proof.Machine
end

