-- ==== Sys2Proof/Laws/PerInstr.lean ====
section
/-! SUPPORT. The family MatchesTableRow: an instruction's command byte matches its row of 30_encoding.md R52 (match and mask). -/

namespace Sys2Proof.Laws.MatchesTableRow

/-- The row's mask and match (30_encoding.md R52). -/
def row : Instr → Byte × Byte
  | .b16enc => (0xFF, 0x00)
  | .b16dec => (0xFF, 0x01)
  | .b32enc => (0xFF, 0x02)
  | .b32dec => (0xFF, 0x03)
  | .b64enc _ _ _ => (0xC7, 0x04)
  | .b64dec _ => (0xF7, 0x05)

/-- The command byte under the mask is the match. -/
def Statement (i : Instr) : Prop := encode i &&& (row i).1 = (row i).2

theorem b16enc : Statement .b16enc := by unfold Statement; decide
theorem b16dec : Statement .b16dec := by unfold Statement; decide
theorem b32enc : Statement .b32enc := by unfold Statement; decide
theorem b32dec : Statement .b32dec := by unfold Statement; decide
theorem b64enc (urlSafe noPadding wrap : Bool) : Statement (.b64enc urlSafe noPadding wrap) := by
  unfold Statement; revert urlSafe noPadding wrap; decide
theorem b64dec (urlSafe : Bool) : Statement (.b64dec urlSafe) := by
  unfold Statement; revert urlSafe; decide

end Sys2Proof.Laws.MatchesTableRow
end

