-- ==== Sys2Proof/Tests/Slice0.lean ====
section
/-! SUPPORT. Tests: vectors of spec/95_test_vectors.md (each named in its comment) and words written out from the encoding
tables, one step each; the smoke tests of WellFormed; and the witnesses of the statements' hypotheses. -/

namespace Sys2Proof.Tests

open Sys2Proof.Machine

/-- A busy block of the programs' configuration with this command and input. -/
def launched (c : Byte) (input : List Byte) : State :=
  { State.reset with cmd := c, srcLen := input.length, src := Memory.bytesAt 0 input, status := statusBusy }

/-- The same block with these turns to come. -/
def withTurns (s : State) (ts : List Turn) : State := { s with turns := ts }

/-- What a step leaves for the host: STATUS, ERR_POS, DST_LEN, and the output bytes. -/
def collect : Host.Outcome State Fault Refusal → Option (Byte × Nat × Nat × List Byte)
  | .next t => some (statusByte t.status, t.errPos, t.dstLen, t.dst.map Prod.snd)
  | .fault _ => none
  | .refused _ => none

/-! ## Words written out from the encodings of 30_encoding.md R50, R52 -/

theorem test_decode_b16enc : decode 0b00000000 = .legal .b16enc := by decide
theorem test_decode_b16dec : decode 0b00000001 = .legal .b16dec := by decide
theorem test_decode_b32enc : decode 0b00000010 = .legal .b32enc := by decide
theorem test_decode_b32dec : decode 0b00000011 = .legal .b32dec := by decide
/-- `00wnu100`, one flag at a time. -/
theorem test_decode_b64enc : decode 0b00001100 = .legal (.b64enc true false false) ∧
    decode 0b00010100 = .legal (.b64enc false true false) ∧
    decode 0b00100100 = .legal (.b64enc false false true) := by decide
/-- `0000u101`. -/
theorem test_decode_b64dec : decode 0b00000101 = .legal (.b64dec false) ∧
    decode 0b00001101 = .legal (.b64dec true) := by decide
/-- D-C-1 to D-C-5: each group of R56 is refused by its name. -/
theorem test_decode_illegal : decode 0x06 = .illegal .reservedCodec ∧ decode 0x07 = .illegal .reservedCodec ∧
    decode 0x08 = .illegal .flagWithoutBase64 ∧ decode 0x23 = .illegal .flagWithoutBase64 ∧
    decode 0x15 = .illegal .encodeFlagWithDecode ∧ decode 0x3D = .illegal .encodeFlagWithDecode ∧
    decode 0x40 = .illegal .reservedBits ∧ decode 0xFF = .illegal .reservedBits := by decide
theorem test_table_word : decodeTableWord 8 0x3C = some (.b64enc true true true) ∧ decodeTableWord 8 0x06 = none := by
  decide
/-- R62's examples. -/
theorem test_assembler : assembler (.b64enc true false true) = "B64ENC.u.w" ∧ encode (.b64enc true false true) = 0x2C := by
  decide

/-! ## Fetch: the first step after reset runs the placed command -/

theorem test_fetch_runs_first : collect (step (State.reset.withFetchWord 8 0x04)) = some (0x02, 0, 0, []) := by decide
theorem test_fetch_illegal : collect (step (State.reset.withFetchWord 8 0x09)) = some (0x1E, 0, 0, []) := by decide

/-! ## One completion each -/

/-- 41_base16.md R90, example: `4C 69` gives `"4C69"`. -/
theorem test_b16enc : collect (exec .b16enc (launched 0x00 [0x4C, 0x69])) =
    some (0x02, 0, 4, [0x34, 0x43, 0x36, 0x39]) := by decide
/-- D-16-14: `"aB"` gives `AB`. -/
theorem test_b16dec : collect (exec .b16dec (launched 0x01 [0x61, 0x42])) = some (0x02, 0, 1, [0xAB]) := by decide
/-- D-16-18: `"4G5"`, length before symbol. -/
theorem test_b16dec_odd : collect (exec .b16dec (launched 0x01 [0x34, 0x47, 0x35])) = some (0x16, 3, 0, []) := by decide
/-- V4: `"Man"` gives `"JVQW4==="`. -/
theorem test_b32enc : collect (exec .b32enc (launched 0x02 [0x4D, 0x61, 0x6E])) =
    some (0x02, 0, 8, [0x4A, 0x56, 0x51, 0x57, 0x34, 0x3D, 0x3D, 0x3D]) := by decide
/-- D-32-31: `"MZX====="` gives `"f"` (three symbols, one byte). -/
theorem test_b32dec : collect (exec .b32dec (launched 0x03 [0x4D, 0x5A, 0x58, 0x3D, 0x3D, 0x3D, 0x3D, 0x3D])) =
    some (0x02, 0, 1, [0x66]) := by decide
/-- D-32-38: `"M0======"`, invalid at 1. -/
theorem test_b32dec_invalid : collect (exec .b32dec (launched 0x03 [0x4D, 0x30, 0x3D, 0x3D, 0x3D, 0x3D, 0x3D, 0x3D])) =
    some (0x0E, 1, 0, []) := by decide
/-- D-64-10: `FB FF` with `.u.n` gives `"-_8"`. -/
theorem test_b64enc : collect (exec (.b64enc true true false) (launched 0x1C [0xFB, 0xFF])) =
    some (0x02, 0, 3, [0x2D, 0x5F, 0x38]) := by decide
/-- D-64-20, cut to its end: 58 bytes with wrap, the line break and the 20th group `"+w=="`. -/
theorem test_b64enc_wrap : ((collect (exec (.b64enc false false true)
    (launched 0x24 ((List.replicate 19 [0xFB, 0xFF, 0xBE]).flatten ++ [0xFB])))).map fun r =>
      (r.2.2.1, r.2.2.2.drop 75)) = some (82, [0x2B, 0x0D, 0x0A, 0x2B, 0x77, 0x3D, 0x3D]) := by decide +kernel
/-- D-64-39: `"T W\r\nE="` gives `"Ma"`. -/
theorem test_b64dec : collect (exec (.b64dec false) (launched 0x05 [0x54, 0x20, 0x57, 0x0D, 0x0A, 0x45, 0x3D])) =
    some (0x02, 0, 2, [0x4D, 0x61]) := by decide
/-- D-64-49: `" TW*u"`, the position counts the space. -/
theorem test_b64dec_invalid : collect (exec (.b64dec false) (launched 0x05 [0x20, 0x54, 0x57, 0x2A, 0x75])) =
    some (0x0E, 3, 0, []) := by decide

/-! ## Host turns, one step each -/

/-- P3, step 7: `.cmd 0x09` completes with `STATUS = 0x1E`. -/
theorem test_illegal_command : collect (step (launched 0x09 [])) = some (0x1E, 0, 0, []) := by decide
/-- D-C-7: 129 bytes of length with `SRC_CAP = 128`. -/
theorem test_overlong : collect (step { launched 0x01 [] with srcLen := 129 }) = some (0x1E, 0, 0, []) := by decide
/-- P4, case A: a write while busy is dropped. -/
theorem test_busy_write_dropped :
    (match step (withTurns (launched 0x00 [0xDE]) [.host (.writeSrc 0 0x00)]) with
      | .next t => t.src.read 0 | .fault _ => none | .refused _ => none) = some 0xDE := by decide

/-! ## WellFormed: an ill-formed term for each check -/

theorem test_params_ok : Params.ofPrograms.WF := by decide
theorem test_params_srcCap : ¬ ({ srcCap := 0, dstCap := 264, lenW := 9 } : Params).WF := by decide
theorem test_params_dstCap : ¬ ({ srcCap := 128, dstCap := 255, lenW := 9 } : Params).WF := by decide
theorem test_params_lenW : ¬ ({ srcCap := 128, dstCap := 264, lenW := 8 } : Params).WF := by decide
theorem test_params_lenW_src : ¬ ({ srcCap := 300, dstCap := 200, lenW := 8 } : Params).WF := by decide
theorem test_move_srcCell : ¬ (HostMove.writeSrc 128 0x00).WF Params.ofPrograms := by decide
theorem test_move_dstCell : ¬ (HostMove.writeDst 264 0x00).WF Params.ofPrograms := by decide
theorem test_move_srcLen : ¬ (HostMove.writeSrcLen 512).WF Params.ofPrograms := by decide
theorem test_move_dstLen : ¬ (HostMove.writeDstLen 512).WF Params.ofPrograms := by decide
theorem test_move_errPos : ¬ (HostMove.writeErrPos 512).WF Params.ofPrograms := by decide
theorem test_move_read_src : ¬ (HostMove.read (.src 128)).WF Params.ofPrograms := by decide
theorem test_move_read_dst : ¬ (HostMove.read (.dst 264)).WF Params.ofPrograms := by decide
/-- Instr has no ill-formed term: a flag that an operation does not take cannot be written, and its byte decodes to none. -/
theorem test_instr_wf : ∀ i : Instr, i.WF := by intro i; cases i <;> trivial

/-! ## Witnesses of the statements' hypotheses -/

/-- A busy block, loaded, in which every field of the invariant holds. -/
theorem launched_inv : (launched 0x00 [0x4C, 0x69]).Inv where
  params := by decide
  srcCanonical := by decide
  srcInBounds := by decide
  srcLenFits := by decide
  dstCells := by decide
  dstInBounds := by decide
  errPosFits := by decide
  notBusyAndDone := by decide
  errIffCode := by decide
  errDone := by decide
  errNoOutput := by decide
  noResultBeforeDone := by decide
  okNoPosition := by decide

/-- A block after a success with one output byte. -/
def finished : State := (launched 0x01 [0x34, 0x63]).completeOk [0x4C]

theorem witness_CommandDecodeAndEncodeAgree : decode 0x3C = .legal (.b64enc true true true) := by decide

theorem witness_ResetAbandonsTheOperationInFlight :
    let s := withTurns (launched 0x00 [0x4C]) [.reset, .core];
    s.params.WF ∧ s.status.busy = true ∧ s.turns = .reset :: [.core] := by decide

theorem witness_EveryStepKeepsTheInvariant :
    ∃ s t : State, s.Inv ∧ s.status.busy = true ∧ step s = .next t ∧ t.dstLen = 4 := by
  refine ⟨_, _, launched_inv, by decide, rfl, by decide⟩

theorem witness_StatusReadsAsALegalValue : ∃ s : State, s.Inv ∧ s.status.busy = true := ⟨_, launched_inv, by decide⟩

/-- The boundary values of the statement: error and success states meet the invariant too. -/
theorem witness_StatusReadsAsALegalValue_err : ∃ s : State, s.Inv ∧ s.status.err = true :=
  ⟨(launched 0x01 [0x34]).completeErr .malformedLength 1,
    ⟨by decide, by decide, by decide, by decide, by decide, by decide, by decide, by decide, by decide, by decide,
      by decide, by decide, by decide⟩, by decide⟩

theorem witness_CommandWriteLaunches :
    (let s := withTurns finished [.host (.writeCmd 0x09)];
      s.params.WF ∧ s.status.busy = false ∧ s.turns = .host (.writeCmd 0x09) :: []) ∧
    (let s := withTurns (launched 0x00 []) [.host (.writeCmd 0x02)];
      s.params.WF ∧ s.status.busy = true ∧ s.turns = .host (.writeCmd 0x02) :: []) := by decide

theorem witness_StepRunsTheDecodedInstruction :
    (let s := launched 0x0D [0x54, 0x51];
      s.params.WF ∧ s.CoreNext [] ∧ s.status.busy = true ∧ decode s.cmd = .legal (.b64dec true)) ∧
    (let s := withTurns (launched 0x02 [0x54]) [.core, .reset];
      s.params.WF ∧ s.CoreNext [.reset] ∧ s.status.busy = true ∧ decode s.cmd = .legal .b32enc) := by decide

theorem witness_CompletionDeliversTheResultOfExec :
    let s := launched 0x06 [0x54, 0x51];
    s.params.WF ∧ s.CoreNext [] ∧ s.status.busy = true := by decide

theorem witness_IllegalLaunchEndsWithIllegalCommand :
    (let s := launched 0x12 [];
      s.params.WF ∧ s.CoreNext [] ∧ s.status.busy = true ∧ decode s.cmd = .illegal .flagWithoutBase64) ∧
    (let s : State := { launched 0x00 [] with srcLen := 129 };
      s.params.WF ∧ s.CoreNext [] ∧ s.status.busy = true ∧ s.params.srcCap < s.srcLen) := by decide

theorem witness_OverlongInputIsIllegalForEveryOperation :
    let s : State := { launched 0x00 [] with srcLen := 129 };
    s.params.srcCap < s.srcLen := by decide

theorem witness_OutputFitsTheDestinationBuffer : (launched 0x00 [0x4C]).params.WF := by decide

theorem witness_ResultDependsOnCommandAndInputAlone :
    let s₁ := launched 0x00 [0x4C, 0x69];
    let s₂ : State := { finished with srcLen := 2, src := [(0, 0x4C), (1, 0x69), (2, 0xFF)], epoch := 7 };
    s₁.LaunchPremise ∧ s₁.srcLen = s₂.srcLen ∧ s₁.params.srcCap = s₂.params.srcCap ∧
      ∀ k, k < s₁.srcLen → s₁.src.read k = s₂.src.read k := by decide

theorem witness_HostWritesAreDropped_busy :
    let s := withTurns (launched 0x00 [0x4C]) [.host (.writeSrc 127 0xFF)];
    s.params.WF ∧ s.turns = .host (.writeSrc 127 0xFF) :: [] ∧ (HostMove.writeSrc 127 0xFF).WF s.params ∧
      s.status.busy = true ∧ ∀ p, HostMove.writeSrc 127 0xFF ≠ .read p :=
  ⟨by decide, rfl, by decide, rfl, fun _ => nofun⟩

theorem witness_HostWritesAreDropped_readOnly :
    let s := withTurns finished [.host (.writeDst 263 0xFF)];
    s.params.WF ∧ s.turns = .host (.writeDst 263 0xFF) :: [] ∧ (HostMove.writeDst 263 0xFF).WF s.params ∧
      (HostMove.writeDstLen 511).WF s.params ∧ (HostMove.writeErrPos 511).WF s.params ∧
      (HostMove.writeStatus 0xFF).WF s.params := by decide

theorem witness_HostReadsWhileBusy : ∃ s : State, s.Inv ∧ s.status.busy = true ∧ s.src.read 1 = some 0x69 :=
  ⟨_, launched_inv, by decide, by decide⟩

/-- A completed block in which every field of the invariant holds. -/
theorem finished_inv : finished.Inv := by constructor <;> decide

/-- Each clause at its boundary: busy and idle, the last DST cell with a byte and the first without, the last SRC cell. -/
theorem witness_HostReadsGiveTheFields :
    (∃ s : State, s.Inv ∧ s.status.busy = true) ∧
    (finished.Inv ∧ finished.status.busy = false ∧ finished.src.read 1 = some 0x63 ∧ 127 < finished.params.srcCap ∧
      finished.dst.read 0 = some 0x4C ∧ finished.dst.read 1 = none ∧ 0 < finished.dstLen) :=
  ⟨⟨_, launched_inv, by decide⟩, finished_inv, by decide⟩

/-- 41_base16.md R92, example, and the STATUS encodings of P3: after `B16DEC` of `"4c"` the host collects `STATUS = 0x02`, `DST_LEN = 1`, `DST[0] = 4C`. -/
theorem test_collect : finished.portValue .status = some 0x02 ∧ finished.portValue .dstLen = some 1 ∧
    finished.portValue (.dst 0) = some 0x4C ∧ finished.portValue (.dst 1) = none := by decide

theorem witness_HostWriteOfATooWideLengthIsRefused :
    (let s := withTurns finished [.host (.writeSrcLen 512)];
      s.params.WF ∧ s.turns = .host (.writeSrcLen 512) :: [] ∧ 2 ^ s.params.lenW ≤ 512) ∧
    (let s := withTurns (launched 0x00 []) [.host (.writeDstLen 512)];
      s.params.WF ∧ s.turns = .host (.writeDstLen 512) :: [] ∧ 2 ^ s.params.lenW ≤ 512) ∧
    (let s := withTurns finished [.host (.writeErrPos 513)];
      s.params.WF ∧ s.turns = .host (.writeErrPos 513) :: [] ∧ 2 ^ s.params.lenW ≤ 513) := by decide

theorem witness_HostReadsChangeNothing :
    (let s := withTurns finished [.host (.read (.dst 0))];
      s.params.WF ∧ s.turns = .host (.read (.dst 0)) :: [] ∧ (Port.dst 0).WF s.params ∧ (s.dst.read 0).isSome) ∧
    (let s := withTurns (launched 0x00 []) [.host (.read (.src 127))];
      s.params.WF ∧ s.turns = .host (.read (.src 127)) :: [] ∧ (Port.src 127).WF s.params) := by decide

theorem witness_HostAccessWithoutACellOrAByteFaults :
    (let s := withTurns finished [.host (.writeSrc 128 0x00)];
      s.params.WF ∧ s.params.srcCap ≤ 128 ∧ s.turns = .host (.writeSrc 128 0x00) :: []) ∧
    (let s := withTurns finished [.host (.read (.src 128))];
      s.params.srcCap ≤ 128 ∧ s.turns = .host (.read (.src 128)) :: []) ∧
    (let s := withTurns finished [.host (.writeDst 264 0x00)];
      s.params.dstCap ≤ 264 ∧ s.turns = .host (.writeDst 264 0x00) :: []) ∧
    (let s := withTurns finished [.host (.read (.dst 264))];
      s.params.dstCap ≤ 264 ∧ s.turns = .host (.read (.dst 264)) :: []) ∧
    (let s := withTurns finished [.host (.read (.dst 1))];
      1 < s.params.dstCap ∧ s.dst.read 1 = none ∧ s.turns = .host (.read (.dst 1)) :: []) := by decide

theorem witness_HostWritesStoreInAnIdleBlock :
    (let s := withTurns finished [.host (.writeSrc 127 0x00)];
      s.params.WF ∧ s.status.busy = false ∧ 127 < s.params.srcCap ∧ s.turns = .host (.writeSrc 127 0x00) :: []) ∧
    (let s := withTurns finished [.host (.writeSrcLen 511)];
      s.status.busy = false ∧ 511 < 2 ^ s.params.lenW ∧ s.turns = .host (.writeSrcLen 511) :: []) := by decide

theorem witness_LoadScriptLoadsTheInput :
    let s := withTurns finished ((scriptLoad [0x34, 0x47, 0x35]).map Turn.host ++ scriptCmd 0x01 2);
    s.params.WF ∧ s.ScriptLegal ∧ [0x34, 0x47, (0x35 : Byte)].length ≤ s.params.srcCap ∧
      s.turns = (scriptLoad [0x34, 0x47, 0x35]).map Turn.host ++ scriptCmd 0x01 2 := by decide

/-- A legal mnemonic and an illegal byte, with and without a read before the completion. -/
theorem witness_LaunchScriptWaitsForItsCompletion :
    (let s := withTurns finished (scriptLaunch .b32enc 3 ++ [.reset]);
      s.params.WF ∧ s.ScriptLegal ∧ 0x02 = encode .b32enc ∧ s.turns = scriptLaunch .b32enc 3 ++ [.reset] ∧ 3 ≤ 3) ∧
    (let s := withTurns finished (scriptCmd 0x09 0);
      s.params.WF ∧ s.ScriptLegal ∧ s.turns = scriptCmd 0x09 0 ++ [] ∧ 0 ≤ 0) := by decide

/-- P3 step 7: `.cmd 0x09` ends with `STATUS = 0x1E`, `ERR_POS = 0`, `DST_LEN = 0`, and the block is idle again. -/
theorem test_script_cmd :
    collect (Sys2Proof.core.run 4 (withTurns finished (scriptCmd 0x09 1))) = some (0x1E, 0, 0, []) := by decide

/-- Eight bytes of output in a block whose source buffer has one cell. -/
def overfull : State := ((State.resetWith { srcCap := 1, dstCap := 8, lenW := 4 }).launch 0x02).completeOk (List.replicate 8 0x3D)

theorem overfull_inv : overfull.Inv := by constructor <;> decide

/-- An output that fits and one that does not, each with the next launch behind it. -/
theorem witness_XferScriptLoadsTheOutput :
    (let s := withTurns finished ((scriptXfer finished).map Turn.host ++ scriptLaunch .b32dec 0);
      s.Inv ∧ s.ScriptLegal ∧ s.turns = (scriptXfer s).map Turn.host ++ scriptLaunch .b32dec 0 ∧
        s.dstLen ≤ s.params.srcCap ∧ 0 < s.dstLen) ∧
    (let s := withTurns overfull ((scriptXfer overfull).map Turn.host ++ scriptLaunch .b32dec 0);
      s.Inv ∧ s.ScriptLegal ∧ s.turns = (scriptXfer s).map Turn.host ++ scriptLaunch .b32dec 0 ∧
        s.params.srcCap < s.dstLen) :=
  ⟨⟨{ finished_inv with }, by decide⟩, { overfull_inv with }, by decide⟩

/-- A completion with success, one with error, and a busy block, and what P3 expects of them. -/
theorem witness_ScriptChecksAreOfWhatTheHostReads :
    (finished.Inv ∧ scriptExpect finished [0x4C] = true ∧ scriptExpect finished [] = false ∧ scriptIfErr finished = false) ∧
    (let s := (launched 0x01 [0x34, 0x47]).completeErr .invalidSymbol 1;
      s.Inv ∧ scriptExpectErr s 1 1 = true ∧ scriptExpectErr s 2 1 = false ∧ scriptIfErr s = true) ∧
    (∃ s : State, s.Inv ∧ scriptWaitEnds s = false) :=
  ⟨⟨finished_inv, by decide⟩, ⟨by constructor <;> decide, by decide⟩, _, launched_inv, by decide⟩

theorem witness_IdleCoreTurnChangesNothing :
    (let s := finished;
      s.params.WF ∧ s.CoreNext [] ∧ s.status.busy = false) ∧
    (let s := withTurns finished [.core];
      s.params.WF ∧ s.CoreNext [] ∧ s.status.busy = false) := by decide

theorem witness_BusyBlockCompletesOnItsLaunchState :
    let s := withTurns (launched 0x00 [0xDE, 0xAD]) [.host (.writeSrc 0 0x00), .host (.read .status), .host (.writeCmd 0x02)];
    s.params.WF ∧ s.status.busy = true ∧ ∀ x ∈ s.turns, HarmlessTurn s.params x := by
  refine ⟨by decide, rfl, fun x hx => ?_⟩
  simp only [withTurns, List.mem_cons, List.not_mem_nil, or_false] at hx
  rcases hx with rfl | rfl | rfl <;> decide

theorem witness_IllegalConfigurationIsRefused :
    ({ srcCap := 0, dstCap := 264, lenW := 9 } : Params).srcCap = 0 ∧
    ({ srcCap := 128, dstCap := 255, lenW := 9 } : Params).dstCap < outMax 128 ∧
    2 ^ ({ srcCap := 1, dstCap := 8, lenW := 3 } : Params).lenW ≤ ({ srcCap := 1, dstCap := 8, lenW := 3 } : Params).dstCap ∧
    2 ^ ({ srcCap := 8, dstCap := 7, lenW := 3 } : Params).lenW ≤ ({ srcCap := 8, dstCap := 7, lenW := 3 } : Params).srcCap := by
  decide

theorem witness_PaddingTablesAreAsTabulated : (7 < symCount .base32 ∧ 1 ≤ 5 ∧ 5 ≤ rawCount .base32) ∧
    (3 < symCount .base64 ∧ 1 ≤ 1 ∧ 1 ≤ rawCount .base64) := by decide

theorem witness_Base32GroupTablesAreAsTabulated : (31 : Byte) < 32 ∧ (7 < 8) := by decide

theorem witness_Base64GroupTablesAreTheFormulas : (63 : Byte) < 64 ∧ (3 < 4) := by decide

/-- Loaded inputs: an empty one, and one that fills the source buffer. -/
theorem witness_Loaded : (launched 0x00 []).Loaded [] ∧
    (launched 0x04 (List.replicate 128 0xFF)).Loaded (List.replicate 128 0xFF) := by decide +kernel

theorem witness_EncoderStatements : let s := launched 0x00 [0x4C, 0x69, 0xFF, 0x00];
    s.Loaded [0x4C, 0x69, 0xFF, 0x00] ∧ (5 * 0 < 4) ∧ (3 * 1 < 4) := by decide

/-- The overlong clauses of the encoders. -/
theorem witness_EncoderStatements_overlong : let s : State := { launched 0x00 [] with srcLen := 511 };
    s.params.srcCap < s.srcLen := by decide

/-- A group that a line break precedes: `g = 19` of 58 bytes. -/
theorem witness_B64EncWritesFieldsPadsAndBreaks :
    let s := launched 0x24 (List.replicate 58 0x00);
    s.Loaded (List.replicate 58 0x00) ∧ 1 ≤ 19 ∧ 19 % 19 = 0 ∧ 3 * 19 < (List.replicate 58 (0x00 : Byte)).length := by
  decide +kernel

theorem witness_B16DecJoinsNibbles : let s := launched 0x01 [0x34, 0x63];
    s.Loaded [0x34, 0x63] ∧ [0x34, (0x63 : Byte)].length % 2 = 0 ∧ [4, 12].length = [0x34, (0x63 : Byte)].length ∧
      SymbolsOf .a16 ([0x34, 0x63].map fold) [4, 12] := by decide

theorem witness_B16DecChecksForAnEvenLength : (launched 0x01 [0x34]).Loaded [0x34] ∧ (launched 0x01 []).Loaded [] := by
  decide

theorem witness_B16DecReportsTheFirstInvalidSymbol : let s := launched 0x01 [0x34, 0x47];
    s.Loaded [0x34, 0x47] ∧ [0x34, (0x47 : Byte)].length % 2 = 0 ∧ alphDec .a16 (fold 0x47) = .invalid ∧
      alphDec .a16 (fold 0x34) ≠ .invalid := by decide

theorem witness_Base16RoundTrip : b16Enc [0x4C] = .ok [0x34, 0x43] ∧ (launched 0x01 [0x34, 0x43]).Loaded [0x34, 0x43] ∧
    (launched 0x01 [0x34, 0x63]).Loaded
      ([0x34, (0x43 : Byte)].map fun c => if 0x41 ≤ c.toNat ∧ c.toNat ≤ 0x46 then c + 0x20 else c) := by decide

theorem witness_Base16DecodeLosesOnlyCase : b16Dec [0x61, 0x42] = .ok [0xAB] := by decide

theorem witness_B32DecChecksForWholeWindows : (launched 0x03 [0x4D]).Loaded [0x4D] ∧ (launched 0x03 []).Loaded [] := by
  decide

/-- D-32-34, `"MY=*****"`: the pad stands before invalid bytes; and D-32-43, no pad. -/
theorem witness_B32DecDeliversTheBytesBeforeTheFirstPad :
    (let input : List Byte := [0x4D, 0x59, 0x3D, 0x2A, 0x2A, 0x2A, 0x2A, 0x2A];
      (launched 0x03 input).Loaded input ∧ input.length % 8 = 0 ∧ SymbolsOf .a32 input [12, 24] ∧
        input[[12, 24].length]? = some 0x3D) ∧
    (let input : List Byte := List.replicate 8 0x37;
      (launched 0x03 input).Loaded input ∧ SymbolsOf .a32 input (List.replicate 8 31) ∧
        (List.replicate 8 31).length = input.length) := by decide

theorem witness_B32DecReportsTheFirstInvalidSymbol :
    let input : List Byte := [0x4D, 0x30, 0x3D, 0x3D, 0x3D, 0x3D, 0x3D, 0x3D];
    (launched 0x03 input).Loaded input ∧ input.length % 8 = 0 ∧ SymbolsOf .a32 input [12] ∧
      input[[12].length]? = some 0x30 ∧ alphDec .a32 0x30 = .invalid := by decide

theorem witness_Base32RoundTrip :
    let text : List Byte := [0x4D, 0x59, 0x3D, 0x3D, 0x3D, 0x3D, 0x3D, 0x3D];
    b32Enc [0x66] = .ok text ∧ (launched 0x03 text).Loaded text := by decide +kernel

theorem witness_Base64AlphabetExclusivity : b64Enc true false false [0xFB, 0xFF] = .ok [0x2D, 0x5F, 0x38, 0x3D] ∧
    (0x2D : Byte) ∈ [0x2D, 0x5F, 0x38, (0x3D : Byte)] := by decide +kernel

theorem witness_Base64WrapAndPaddingOnlyAddBytes : b64Enc false false true [0x66] = .ok [0x5A, 0x67, 0x3D, 0x3D] := by decide +kernel

theorem witness_B64DecChecksTheStrippedLength :
    ((launched 0x05 [0x54]).Loaded [0x54] ∧ (strippedText [0x54]).length % 4 = 1) ∧
    ((launched 0x05 [0x20]).Loaded [0x20] ∧ (strippedText [0x20]).length = 0) := by decide

/-- `"TQ"` with a trailing space (no pad), and D-64-46, `"TQ=*"`. -/
theorem witness_B64DecDeliversTheBytesBeforeTheFirstPad :
    (let input : List Byte := [0x54, 0x51, 0x20];
      let text := (strippedText input).map Prod.fst;
      (launched 0x05 input).Loaded input ∧ text.length % 4 ≠ 1 ∧ SymbolsOf (base64Alphabet false) text [19, 16] ∧
        [19, 16].length = text.length) ∧
    (let input : List Byte := [0x54, 0x51, 0x3D, 0x2A];
      let text := (strippedText input).map Prod.fst;
      (launched 0x05 input).Loaded input ∧ text.length % 4 ≠ 1 ∧ SymbolsOf (base64Alphabet false) text [19, 16] ∧
        text[[19, 16].length]? = some 0x3D) := by decide

/-- D-64-49, `" TW*u"`. -/
theorem witness_B64DecReportsTheFirstInvalidSymbol :
    let input : List Byte := [0x20, 0x54, 0x57, 0x2A, 0x75];
    let text := strippedText input;
    (launched 0x05 input).Loaded input ∧ text.length % 4 ≠ 1 ∧
      SymbolsOf (base64Alphabet false) (text.map Prod.fst) [19, 22] ∧
      text[[19, 22].length]? = some (0x2A, 3) ∧ alphDec (base64Alphabet false) 0x2A = .invalid := by decide

theorem witness_Base64RoundTrip :
    let text : List Byte := [0x2D, 0x5F, 0x38];
    b64Enc true true true [0xFB, 0xFF] = .ok text ∧ (launched 0x0D text).Loaded text := by decide +kernel

theorem witness_Base64DecodeIgnoresWhitespace : b64Dec false [0x54, 0x20, 0x51] = .ok [0x4D] := by decide

/-- Each outcome: an encoding with a special symbol at 0, and one with none. -/
theorem witness_Base64OtherAlphabetAgreesOrReports :
    (let text : List Byte := [0x2D, 0x5F, 0x38];
      b64Enc true true true [0xFB, 0xFF] = .ok text ∧ (launched 0x05 text).Loaded text) ∧
    (let text : List Byte := [0x54, 0x51];
      b64Enc true true true [0x4D] = .ok text ∧ (launched 0x05 text).Loaded text) := by decide +kernel

end Sys2Proof.Tests
end

section
/-! SUPPORT. How much a unit of 60_exceptions.md R144 can deliver: the bounds on its output (00_scope.md R5) and on the position
of an error (60_exceptions.md R146). -/

namespace Sys2Proof.Machine

/-! ### The walks over groups and windows -/

@[simp] theorem groupsOf_length {α : Type} (size : Nat) (xs : List α) :
    (groupsOf size xs).length = ceilDiv xs.length size := by simp [groupsOf]

theorem length_le_of_mem_groupsOf {α : Type} {size : Nat} {xs w : List α} (h : w ∈ groupsOf size xs) :
    w.length ≤ size := by
  obtain ⟨g, -, rfl⟩ := List.mem_map.1 h
  exact List.length_take_le _ _

theorem mem_of_mem_groupsOf {α : Type} {size : Nat} {xs w : List α} (h : w ∈ groupsOf size xs) {x : α} (hx : x ∈ w) :
    x ∈ xs := by
  obtain ⟨g, -, rfl⟩ := List.mem_map.1 h
  exact List.mem_of_mem_drop (List.mem_of_mem_take hx)

/-- A walk that writes at most `k` elements for each item of a list. -/
theorem length_flatMap_le {α β : Type} {f : α → List β} {k : Nat} (h : ∀ x, (f x).length ≤ k) (xs : List α) :
    (xs.flatMap f).length ≤ k * xs.length := by
  induction xs with
  | nil => simp
  | cons x xs ih =>
    have := h x
    simp only [List.flatMap_cons, List.length_append, List.length_cons, Nat.mul_succ]
    omega

/-- A group gives at most `Syms` symbols: one or none at each position. -/
theorem encodeGroup_length_le (c : Codec) (sel : Alphabet) (noPadding : Bool) (group : List Byte) :
    (encodeGroup c sel noPadding group).length ≤ symCount c := by
  refine (length_flatMap_le (k := 1) (fun j => ?_) _).trans (by simp)
  split_ifs <;> simp

/-- Full windows are the longest, and one determines exactly `Raw` bytes. -/
theorem bytesFrom_le_rawCount {c : Codec} {v : Nat} (h : v ≤ symCount c) : bytesFrom c v ≤ rawCount c := by
  cases c <;> simp only [symCount, bytesFrom, symBits, rawCount] at * <;> omega

theorem decodeWindows_length_le {c : Codec} {sel : Alphabet} {ws : List (List (Byte × Nat))} {out : List Byte}
    (hw : ∀ w ∈ ws, w.length ≤ symCount c) (h : decodeWindows c sel ws = .ok out) :
    out.length ≤ rawCount c * ws.length := by
  induction ws generalizing out with
  | nil => cases h; simp
  | cons w ws ih =>
    obtain ⟨hw0, hws⟩ := List.forall_mem_cons.1 hw
    rw [decodeWindows] at h
    split at h
    next => cases h
    next is hscan =>
      have hbytes : bytesFrom c is.length ≤ rawCount c := bytesFrom_le_rawCount ((scanWindow_length hscan).trans hw0)
      split at h
      · cases h
        rw [windowBytes_length, List.length_cons, Nat.mul_succ]
        omega
      · split at h
        next rest hrest =>
          cases h
          have := ih hws hrest
          rw [List.length_append, windowBytes_length, List.length_cons, Nat.mul_succ]
          omega
        next => cases h

/-- The position that a scan reports is that of a symbol of its window. -/
theorem exists_mem_of_scanWindow_error {sel : Alphabet} {w : List (Byte × Nat)} {p : Nat}
    (h : scanWindow sel w = .error p) : ∃ x ∈ w, x.2 = p := by
  induction w with
  | nil => cases h
  | cons x w ih =>
    obtain ⟨b, q⟩ := x
    cases hb : alphDec sel b with
    | val i =>
      rw [scanWindow_val hb] at h
      cases hw : scanWindow sel w with
      | ok is => rw [hw] at h; cases h
      | error r =>
        rw [hw] at h
        cases h
        obtain ⟨x, hx, hxp⟩ := ih hw
        exact ⟨x, List.mem_cons_of_mem _ hx, hxp⟩
    | pad => rw [scanWindow_pad hb] at h; cases h
    | invalid =>
      rw [scanWindow_invalid hb] at h
      cases h
      exact ⟨_, List.mem_cons_self, rfl⟩

theorem exists_mem_of_decodeWindows_error {c : Codec} {sel : Alphabet} {ws : List (List (Byte × Nat))} {p : Nat}
    (h : decodeWindows c sel ws = .error p) : ∃ w ∈ ws, ∃ x ∈ w, x.2 = p := by
  induction ws with
  | nil => cases h
  | cons w ws ih =>
    rw [decodeWindows] at h
    split at h
    next q hscan =>
      cases h
      exact ⟨w, List.mem_cons_self, exists_mem_of_scanWindow_error hscan⟩
    next is hscan =>
      split at h
      · cases h
      · split at h
        next => cases h
        next q hrest =>
          cases h
          obtain ⟨v, hv, hx⟩ := ih hrest
          exact ⟨v, List.mem_cons_of_mem _ hv, hx⟩

theorem hexIndices_length {text : List (Byte × Nat)} {is : List Nat} (h : hexIndices text = .ok is) :
    is.length = text.length := by
  induction text generalizing is with
  | nil => cases h; rfl
  | cons x text ih =>
    rw [hexIndices] at h
    split at h
    · split at h
      next js hrest => cases h; simp [ih hrest]
      next => cases h
    · cases h
    · cases h

theorem exists_mem_of_hexIndices_error {text : List (Byte × Nat)} {p : Nat} (h : hexIndices text = .error p) :
    ∃ x ∈ text, x.2 = p := by
  induction text with
  | nil => cases h
  | cons x text ih =>
    rw [hexIndices] at h
    split at h
    · split at h
      next => cases h
      next q hrest =>
        cases h
        obtain ⟨x, hx, hxp⟩ := ih hrest
        exact ⟨x, List.mem_cons_of_mem _ hx, hxp⟩
    · cases h; exact ⟨_, List.mem_cons_self, rfl⟩
    · cases h; exact ⟨_, List.mem_cons_self, rfl⟩

theorem joinNibbles_length (is : List Nat) : (joinNibbles is).length = is.length / 2 := by
  induction is using joinNibbles.induct with
  | case1 hi lo rest ih => simp only [joinNibbles, List.length_cons, ih]; omega
  | case2 x => simp [joinNibbles]
  | case3 => rfl

/-- A line break is two bytes, and only a group whose number is a positive multiple of 19 has one before it. -/
theorem breakBefore_length_le (wrap : Bool) (g : Nat) :
    (breakBefore wrap g).length ≤ if 1 ≤ g ∧ g % 19 = 0 then 2 else 0 := by
  cases wrap with
  | false => simp [breakBefore]
  | true => simp only [breakBefore, wrapGroups, true_and]; split_ifs <;> simp [lineBreak]

/-- The groups of `B64ENC` with their line breaks: one break fewer than there are lines of 19 groups, the last possibly short. -/
theorem wrappedGroups_length_le (sel : Alphabet) (noPadding wrap : Bool) (gs : List (List Byte)) :
    (gs.zipIdx.flatMap fun (group, g) => breakBefore wrap g ++ encodeGroup .base64 sel noPadding group).length ≤
      4 * gs.length + 2 * ((gs.length - 1) / 19) := by
  induction gs using List.reverseRecOn with
  | nil => simp
  | append_singleton gs group ih =>
    have hgroup : (encodeGroup .base64 sel noPadding group).length ≤ 4 := encodeGroup_length_le ..
    have hbreak := breakBefore_length_le wrap gs.length
    simp only [List.zipIdx_append, List.flatMap_append, List.length_append, List.zipIdx_singleton, List.flatMap_singleton,
      List.length_singleton, Nat.zero_add, Nat.add_sub_cancel] at ih ⊢
    split_ifs at hbreak <;> omega

/-! ### `OutMax` -/

/-- `OutMax` as plain arithmetic (00_scope.md R5). -/
theorem outMax_eq (n : Nat) :
    outMax n = max (2 * n) (max (8 * ((n + 4) / 5)) (4 * ((n + 2) / 3) + 2 * (((n + 2) / 3 - 1) / 19))) := rfl

theorem outMax_mono {m n : Nat} (h : m ≤ n) : outMax m ≤ outMax n := by
  rw [outMax_eq, outMax_eq]
  gcongr

/-! ### The units -/

/-- What a unit may answer for `n` bytes of input: an output of at most `OutMax(n)` bytes, or an error at a position of the
input or at its end. -/
def Result.Fits (n : Nat) : Result → Prop
  | .ok out => out.length ≤ outMax n
  | .err _ pos => pos ≤ n

theorem Result.Fits.mono {m n : Nat} {r : Result} (hr : r.Fits m) (h : m ≤ n) : r.Fits n := by
  cases r with
  | ok out => exact Nat.le_trans hr (outMax_mono h)
  | err e pos => exact Nat.le_trans hr h

theorem b16Enc_fits (input : List Byte) : (b16Enc input).Fits input.length := by
  have hlen : (input.flatMap fun b => [alphEnc .a16 (slice b.toNat 7 4), alphEnc .a16 (slice b.toNat 3 0)]).length ≤
      2 * input.length := length_flatMap_le (fun _ => Nat.le_refl 2) input
  exact hlen.trans (Nat.le_max_left ..)

theorem b16Dec_fits (input : List Byte) : (b16Dec input).Fits input.length := by
  unfold b16Dec
  split
  · exact Nat.le_refl _
  · split
    next is his =>
      show (joinNibbles is).length ≤ outMax input.length
      rw [joinNibbles_length, hexIndices_length his, List.length_zipIdx, outMax_eq]
      omega
    next p hp =>
      obtain ⟨x, hx, rfl⟩ := exists_mem_of_hexIndices_error hp
      exact (List.snd_lt_of_mem_zipIdx hx).le

theorem b32Enc_fits (input : List Byte) : (b32Enc input).Fits input.length := by
  have hlen : ((groupsOf 5 input).flatMap (encodeGroup .base32 .a32 false)).length ≤ 8 * (groupsOf 5 input).length :=
    length_flatMap_le (fun group => encodeGroup_length_le ..) _
  rw [groupsOf_length] at hlen
  exact hlen.trans ((Nat.le_max_left ..).trans (Nat.le_max_right ..))

theorem b64Enc_fits (urlSafe noPadding wrap : Bool) (input : List Byte) :
    (b64Enc urlSafe noPadding wrap input).Fits input.length := by
  have hlen := wrappedGroups_length_le (base64Alphabet urlSafe) noPadding wrap (groupsOf 3 input)
  rw [groupsOf_length] at hlen
  exact hlen.trans ((Nat.le_max_right ..).trans (Nat.le_max_right ..))

/-- A decoder of a padded alphabet turns windows of `Syms` into at most `Raw` bytes, which is less than the encoder of the same
codec may write for as many bytes. -/
theorem decodeText_fits {c : Codec} (hc : c ≠ .base16) (sel : Alphabet) {text : List (Byte × Nat)} {n : Nat}
    (hlen : text.length ≤ n) (hpos : ∀ x ∈ text, x.2 ≤ n) : (decodeText c sel text).Fits n := by
  unfold decodeText
  split
  next out hout =>
    have hbytes : out.length ≤ rawCount c * ceilDiv text.length (symCount c) := by
      simpa using decodeWindows_length_le (fun w hw => length_le_of_mem_groupsOf hw) hout
    show out.length ≤ outMax n
    rw [outMax_eq]
    cases c with
    | base16 => exact absurd rfl hc
    | base32 =>
      simp only [rawCount, symCount, ceilDiv] at hbytes
      have hwindows : (text.length + 8 - 1) / 8 ≤ (n + 4) / 5 := by omega
      omega
    | base64 => simp only [rawCount, symCount, ceilDiv] at hbytes; omega
  next p hp =>
    obtain ⟨w, hw, x, hx, rfl⟩ := exists_mem_of_decodeWindows_error hp
    exact hpos x (mem_of_mem_groupsOf hw hx)

theorem b32Dec_fits (input : List Byte) : (b32Dec input).Fits input.length := by
  unfold b32Dec
  split
  · exact Nat.le_refl _
  · exact decodeText_fits (by decide) .a32 (by simp) fun x hx => (List.snd_lt_of_mem_zipIdx hx).le

theorem b64Dec_fits (urlSafe : Bool) (input : List Byte) : (b64Dec urlSafe input).Fits input.length := by
  unfold b64Dec
  split
  · exact Nat.le_refl _
  · refine decodeText_fits (by decide) _ ?_ fun x hx => (List.snd_lt_of_mem_zipIdx (List.mem_of_mem_filter hx)).le
    simpa [strippedText] using List.length_filter_le (fun x : Byte × Nat => !isStripped x.1) input.zipIdx

theorem unitResult_fits (i : Instr) (input : List Byte) : (unitResult i input).Fits input.length := by
  cases i with
  | b16enc => exact b16Enc_fits input
  | b16dec => exact b16Dec_fits input
  | b32enc => exact b32Enc_fits input
  | b32dec => exact b32Dec_fits input
  | b64enc u np w => exact b64Enc_fits u np w input
  | b64dec u => exact b64Dec_fits u input

/-- After the check of 60_exceptions.md R143 an operation's result fits what both `SRC_LEN` and `SRC_CAP` allow. -/
theorem State.resultOf_fits (s : State) (i : Instr) :
    (s.resultOf (unitResult i)).Fits (min s.srcLen s.params.srcCap) := by
  unfold State.resultOf
  split
  · exact Nat.zero_le _
  · have hmin : min s.srcLen s.params.srcCap = s.input.length := by rw [s.input_length]; omega
    rw [hmin]
    exact unitResult_fits i s.input

/-- `Exec` on a legal command is the operation's result on the state; an illegal one is an error at position 0. -/
theorem State.execResult_fits (s : State) :
    (execResult s.cmd s.srcLen s.params.srcCap s.input).Fits (min s.srcLen s.params.srcCap) := by
  unfold execResult
  split
  · exact Nat.zero_le _
  next i _ => exact s.resultOf_fits i

end Sys2Proof.Machine
end

section
/-! SUPPORT. Each operation of the machine keeps the invariant. -/

namespace Sys2Proof.Machine

theorem errorCode_ne_zero (e : ErrorCause) : errorCode e ≠ 0 := by cases e <;> decide

/-- The reset state of every legal configuration meets the invariant (10_state.md R21). -/
theorem State.resetWith_inv {p : Params} (hp : p.WF) : (State.resetWith p).Inv where
  params := hp
  srcCanonical := List.Pairwise.nil
  srcInBounds := by simp [State.resetWith]
  srcLenFits := Nat.two_pow_pos _
  dstCells := rfl
  dstInBounds := Nat.zero_le _
  errPosFits := Nat.two_pow_pos _
  notBusyAndDone := by simp [State.resetWith]
  errIffCode := by simp [State.resetWith]
  errDone := by simp [State.resetWith]
  errNoOutput := by simp [State.resetWith]
  noResultBeforeDone := by simp [State.resetWith]
  okNoPosition := by simp [State.resetWith]

namespace State.Inv

variable {s : State}

theorem withTurns (h : s.Inv) (ts : List Turn) : ({ s with turns := ts } : State).Inv := { h with }

theorem resetEvent (h : s.Inv) : s.resetEvent.Inv := { State.resetWith_inv h.params with }

theorem launch (h : s.Inv) (c : Byte) : (s.launch c).Inv where
  params := h.params
  srcCanonical := h.srcCanonical
  srcInBounds := h.srcInBounds
  srcLenFits := h.srcLenFits
  dstCells := rfl
  dstInBounds := Nat.zero_le _
  errPosFits := Nat.two_pow_pos _
  notBusyAndDone := by simp [statusBusy]
  errIffCode := by simp [statusBusy]
  errDone := by simp [statusBusy]
  errNoOutput := by simp
  noResultBeforeDone := by simp
  okNoPosition := by simp

theorem writeSrcLen (h : s.Inv) {n : Nat} (hn : s.params.fitsLen n) : ({ s with srcLen := n } : State).Inv :=
  { h with srcLenFits := hn }

theorem writeSrc (h : s.Inv) {k : Nat} (b : Byte) (hk : k < s.params.srcCap) :
    ({ s with src := s.src.write k b } : State).Inv :=
  { h with
    srcCanonical := Memory.write_wf h.srcCanonical k b
    srcInBounds := fun c hc => by
      rcases Memory.mem_write hc with rfl | hc
      · exact hk
      · exact h.srcInBounds c hc }

/-- A completion delivers an output that fits the buffer, and nothing with an error (20_memory.md R40, 60_exceptions.md R145). -/
theorem completeOk (h : s.Inv) {out : List Byte} (hout : out.length ≤ s.params.dstCap) : (s.completeOk out).Inv where
  params := h.params
  srcCanonical := h.srcCanonical
  srcInBounds := h.srcInBounds
  srcLenFits := h.srcLenFits
  dstCells := by simp [Memory.map_fst_bytesAt, List.range_eq_range']
  dstInBounds := hout
  errPosFits := Nat.two_pow_pos _
  notBusyAndDone := by simp [statusOk]
  errIffCode := by simp [statusOk]
  errDone := by simp [statusOk]
  errNoOutput := by simp [statusOk]
  noResultBeforeDone := by simp [statusOk]
  okNoPosition := by simp

theorem completeErr (h : s.Inv) (e : ErrorCause) {pos : Nat} (hpos : s.params.fitsLen pos) :
    (s.completeErr e pos).Inv where
  params := h.params
  srcCanonical := h.srcCanonical
  srcInBounds := h.srcInBounds
  srcLenFits := h.srcLenFits
  dstCells := rfl
  dstInBounds := Nat.zero_le _
  errPosFits := hpos
  notBusyAndDone := by simp [statusErr]
  errIffCode := iff_of_true rfl (errorCode_ne_zero e)
  errDone := by simp [statusErr]
  errNoOutput := by simp
  noResultBeforeDone := by simp [statusErr]
  okNoPosition := by simp [statusErr]

/-- The constraints of 00_scope.md R5 are what keeps a result that fits `SRC_CAP` inside `DST` and `ERR_POS`. -/
theorem complete (h : s.Inv) {r : Result} (hr : r.Fits s.params.srcCap) : (s.complete r).Inv := by
  obtain ⟨-, hout, -, hsrc⟩ := h.params
  cases r with
  | ok out => exact h.completeOk (Nat.le_trans hr hout)
  | err e pos => exact h.completeErr e (Nat.lt_of_le_of_lt hr hsrc)

theorem coreTurn (h : s.Inv) {t : State} (ht : coreTurn s = .next t) : t.Inv := by
  rw [coreTurn_eq, Host.Outcome.next.injEq] at ht
  subst ht
  split
  · exact h.complete (s.execResult_fits.mono (Nat.min_le_right ..))
  · exact h

theorem hostMove (h : s.Inv) {m : HostMove} {t : State} (ht : s.hostMove m = .next t) : t.Inv := by
  rcases State.hostMove_cases ht with rfl | ⟨-, ⟨c, -, rfl⟩ | ⟨n, -, hn, rfl⟩ | ⟨k, b, -, hk, rfl⟩⟩
  · exact h
  · exact h.launch c
  · exact h.writeSrcLen hn
  · exact h.writeSrc b hk

end State.Inv

end Sys2Proof.Machine
end

section
/-! SUPPORT. What an operation's results depend on. -/

namespace Sys2Proof.Machine

/-- Where the cells of the input hold the same bytes, all of them written, the input is the same. -/
theorem State.input_congr {s₁ s₂ : State} (hw : s₁.LaunchPremise) (hlen : s₁.srcLen = s₂.srcLen)
    (hread : ∀ k, k < s₁.srcLen → s₁.src.read k = s₂.src.read k) : s₁.input = s₂.input := by
  unfold State.input
  rw [← hlen]
  refine List.map_congr_left fun k hk => ?_
  have hk : k < s₁.srcLen := List.mem_range.1 hk
  obtain ⟨b, hb⟩ := Option.isSome_iff_exists.1 (hw k hk)
  simp [State.srcByte, ← hread k hk, hb]

/-- A completion overwrites every result with a value that its result `r` alone gives. -/
theorem State.complete_results_congr (s₁ s₂ : State) (r : Result) :
    (s₁.complete r).dst = (s₂.complete r).dst ∧ (s₁.complete r).dstLen = (s₂.complete r).dstLen ∧
      (s₁.complete r).status = (s₂.complete r).status ∧ (s₁.complete r).errPos = (s₂.complete r).errPos := by
  cases r <;> exact ⟨rfl, rfl, rfl, rfl⟩

end Sys2Proof.Machine
end

section
/-! The statements of the family 00_scope.md. -/

namespace Sys2Proof.Machine

/-- Settles O7: a step is a core turn, a host move or a reset (`step_cases`), and each keeps the invariant. -/
theorem everyStepKeepsTheInvariant : Obligations.EveryStepKeepsTheInvariant := by
  intro s t h hstep
  obtain ⟨-, ⟨rest, -, hcore⟩ | ⟨m, rest, -, hhost⟩ | ⟨rest, -, rfl⟩⟩ := step_cases hstep
  · exact (h.withTurns rest).coreTurn hcore
  · exact (h.withTurns rest).hostMove hhost
  · exact (h.withTurns rest).resetEvent

/-- Settles O15: a result fits both `SRC_LEN` and `SRC_CAP`, and `OutMax` is monotone. -/
theorem outputFitsTheDestinationBuffer : Obligations.OutputFitsTheDestinationBuffer := by
  intro i s hp
  refine ⟨_, exec_eq_complete i s, ?_⟩
  have hfits := s.resultOf_fits i
  obtain ⟨-, hcap, -, -⟩ := hp
  cases hr : s.resultOf (unitResult i) with
  | ok out =>
    rw [hr] at hfits
    exact ⟨hfits.mono (Nat.min_le_left ..), Nat.le_trans (hfits.mono (Nat.min_le_right ..)) hcap⟩
  | err e pos => exact ⟨Nat.zero_le _, Nat.zero_le _⟩

/-- Settles O16: equal inputs and equal lengths give one result, and the completion writes nothing else. -/
theorem resultDependsOnCommandAndInputAlone : Obligations.ResultDependsOnCommandAndInputAlone := by
  intro i s₁ s₂ hw hlen hcap hread
  have hresult : s₁.resultOf (unitResult i) = s₂.resultOf (unitResult i) := by
    unfold State.resultOf
    rw [State.input_congr hw hlen hread, hlen, hcap]
  refine ⟨_, _, exec_eq_complete i s₁, exec_eq_complete i s₂, ?_⟩
  rw [hresult]
  exact State.complete_results_congr s₁ s₂ _

/-- Settles O25: each of the four cases contradicts one conjunct of `Params.WF`, which a turn checks first. -/
theorem illegalConfigurationIsRefused : Obligations.IllegalConfigurationIsRefused := by
  intro s hbroken
  have hnot : ¬ s.params.WF := by
    rintro ⟨hsrc, hout, hdst, hlen⟩
    omega
  exact if_neg hnot

end Sys2Proof.Machine
end

section
/-! SUPPORT. What a host reads of `STATUS` and of the buffers (10_state.md R15, R17, R18), and what its writes do in an idle
block or with a value that a register cannot hold. -/

namespace Sys2Proof.Machine

/-- The bits of `STATUS` at their places (10_state.md R15). -/
theorem statusByte_toNat (t : Status) :
    (statusByte t).toNat = t.busy.toNat + 2 * t.done.toNat + 4 * t.err.toNat + 8 * t.errCode.toNat := by
  obtain ⟨busy, done, err, errCode⟩ := t
  revert busy done err errCode
  decide

/-- The register of a block that is idle and has no result reads 0. -/
theorem statusByte_clear : statusByte { busy := false, done := false, err := false, errCode := 0 } = 0 := by decide

/-- Under the invariant `BUSY`, `DONE` and `ERR` are one of the four legal combinations (10_state.md R15). -/
theorem State.Inv.statusBits_legal {s : State} (h : s.Inv) :
    s.status.busy.toNat + 2 * s.status.done.toNat + 4 * s.status.err.toNat ∈ [0, 1, 2, 6] := by
  cases hbusy : s.status.busy with
  | true =>
    have hdone : s.status.done = false := Bool.eq_false_iff.2 fun hd => h.notBusyAndDone ⟨hbusy, hd⟩
    have herr : s.status.err = false := Bool.eq_false_iff.2 fun he => h.notBusyAndDone ⟨hbusy, h.errDone he⟩
    simp [hdone, herr]
  | false =>
    cases herr : s.status.err with
    | true => simp [h.errDone herr]
    | false => cases s.status.done <;> simp

/-- An access below the capacity does what it would do. -/
theorem withCell_of_lt {k cap : Nat} (h : k < cap) (o : Host.Outcome State Fault Refusal) : withCell k cap o = o :=
  if_pos h

/-- A length of at most `LEN_W` bits is written. -/
theorem State.withLength_of_fits {s : State} {n : Nat} (h : s.params.fitsLen n) (t : State) :
    s.withLength n t = .next t := if_pos h

/-- An idle block drops no write. -/
theorem State.unlessBusy_of_idle {s : State} (h : s.status.busy = false) (t : State) : s.unlessBusy t = t := by
  simp [State.unlessBusy, h]

/-- A write of `SRC` in an idle block. -/
theorem State.hostMove_writeSrc_of_idle {s : State} {k : Nat} (hidle : s.status.busy = false) (hk : k < s.params.srcCap)
    (b : Byte) : s.hostMove (.writeSrc k b) = .next { s with src := s.src.write k b } := by
  rw [State.hostMove, withCell_of_lt hk, State.unlessBusy_of_idle hidle]

/-- A write of `SRC_LEN` in an idle block. -/
theorem State.hostMove_writeSrcLen_of_idle {s : State} {n : Nat} (hidle : s.status.busy = false)
    (hn : s.params.fitsLen n) : s.hostMove (.writeSrcLen n) = .next { s with srcLen := n } := by
  rw [State.hostMove, State.withLength_of_fits hn, State.unlessBusy_of_idle hidle]

/-- A source cell holds the byte written to it. -/
theorem State.srcByte_of_read {s : State} {k : Nat} {b : Byte} (h : s.src.read k = some b) : s.srcByte k = b := by
  simp [State.srcByte, h]

/-- A source cell within capacity always reads a byte. -/
theorem State.portValue_src_of_lt {s : State} {k : Nat} (h : k < s.params.srcCap) :
    s.portValue (.src k) = some (s.srcByte k).toNat := if_pos h

/-- Under the invariant a written source cell exists (10_state.md R17). -/
theorem State.Inv.lt_srcCap_of_read {s : State} (h : s.Inv) {k : Nat} {b : Byte} (hr : s.src.read k = some b) :
    k < s.params.srcCap := h.srcInBounds _ (Memory.mem_of_read hr)

/-- Under the invariant the cells that do not exist hold no byte, so a destination port reads what the buffer holds. -/
theorem State.Inv.portValue_dst {s : State} (h : s.Inv) (k : Nat) :
    s.portValue (.dst k) = (s.dst.read k).map BitVec.toNat := by
  rw [State.portValue]
  split
  · rfl
  next hk =>
    have hnone : s.dst.read k = none := by
      rw [← Option.not_isSome_iff_eq_none, h.isSome_dst_iff]
      have := h.dstInBounds
      omega
    rw [hnone, Option.map_none]

/-- Under the invariant exactly the destination ports below `DST_LEN` have a value (10_state.md R18). -/
theorem State.Inv.exists_portValue_dst_iff {s : State} (h : s.Inv) (k : Nat) :
    (∃ v, s.portValue (.dst k) = some v) ↔ k < s.dstLen := by
  rw [← Option.isSome_iff_exists, h.portValue_dst, Option.isSome_map, h.isSome_dst_iff]

end Sys2Proof.Machine
end

section
/-! The statements of the family 10_state.md. -/

namespace Sys2Proof.Machine

/-- Settles O4: the registers are read off `State.resetWith`, and both of its buffers are empty. -/
theorem resetLeavesEverythingClear : Obligations.ResetLeavesEverythingClear :=
  ⟨fun _ => ⟨rfl, rfl, rfl, statusByte_clear, rfl, Memory.read_nil, Memory.read_nil⟩, Params.ofPrograms, rfl⟩

/-- Settles O6: the configuration of log entry 1 is legal. -/
theorem resetStateMeetsTheInvariant : Obligations.ResetStateMeetsTheInvariant :=
  State.resetWith_inv (by decide)

/-- Settles O8: `STATUS[2:0]` is one of the four combinations of its bits, and `ERR_CODE` has two bits. -/
theorem statusReadsAsALegalValue : Obligations.StatusReadsAsALegalValue := by
  intro s h
  have hbits := h.statusBits_legal
  have hcode := s.status.errCode.isLt
  rw [statusByte_toNat]
  simp only [List.mem_cons, List.not_mem_nil, or_false] at hbits ⊢
  omega

/-- Settles O20: the capacity is checked first, then, for a read of `DST`, that the cell holds a byte. -/
theorem hostAccessWithoutACellOrAByteFaults : Obligations.HostAccessWithoutACellOrAByteFaults := by
  intro s k b rest hp
  refine ⟨fun hk ht => ?_, fun hk ht => ?_, fun hk hnone ht => ?_⟩
  · rcases ht with ht | ht <;> rw [step_host hp ht] <;> exact withCell_of_le hk _
  · rcases ht with ht | ht <;> rw [step_host hp ht] <;> exact withCell_of_le hk _
  · rw [step_host hp ht, State.hostMove, State.hostRead, withCell_of_lt hk]
    simp [hnone]

/-- Settles O21: the access passes its check and is not dropped, and a buffer reads as `Memory.read_write` says. -/
theorem hostWritesStoreInAnIdleBlock : Obligations.HostWritesStoreInAnIdleBlock := by
  intro s rest hp hidle
  refine ⟨fun k b hk ht => ⟨{ s with src := s.src.write k b, turns := rest }, ?_, ?_, fun a ha => ?_, rfl⟩,
    fun n hn ht => ?_⟩
  · rw [step_host hp ht]
    exact State.hostMove_writeSrc_of_idle (s := { s with turns := rest }) hidle hk b
  · rw [Memory.read_write, if_pos rfl]
  · rw [Memory.read_write, if_neg ha]
  · rw [step_host hp ht]
    exact State.hostMove_writeSrcLen_of_idle (s := { s with turns := rest }) hidle hn

/-- Settles O53: the registers read their fields, and the cells are those that the invariant bounds. -/
theorem hostReadsGiveTheFields : Obligations.HostReadsGiveTheFields := by
  intro s h
  refine ⟨rfl, rfl, rfl, rfl, congrArg some (statusByte_toNat s.status), fun k b hr => ?_, fun k hk => ?_,
    h.portValue_dst, fun k => (h.exists_portValue_dst_iff k).symm⟩
  · rw [State.portValue_src_of_lt (h.lt_srcCap_of_read hr), State.srcByte_of_read hr]
  · exact ⟨_, (s.srcByte k).isLt, State.portValue_src_of_lt hk⟩

/-- Settles O54: the width of the value is checked before the block's state is looked at. -/
theorem hostWriteOfATooWideLengthIsRefused : Obligations.HostWriteOfATooWideLengthIsRefused := by
  intro s n m rest hp ht hn hm
  rw [step_host hp ht]
  rcases hm with rfl | rfl | rfl <;> exact State.withLength_of_le hn _

end Sys2Proof.Machine
end

section
/-! SUPPORT. The core's turn on a legal command, how an operation ends, and the host's reads (20_memory.md R38, R40). -/

namespace Sys2Proof.Machine

/-- In a busy block the core runs the operation that the command byte decodes to. -/
theorem coreTurn_of_legal {s : State} {i : Instr} (hbusy : s.status.busy = true) (hi : decode s.cmd = .legal i) :
    coreTurn s = exec i s := by
  simp [coreTurn, hbusy, hi]

/-- An operation ends in one of two ways: with its whole output, or with a non-zero error code (20_memory.md R40). -/
theorem State.EndsWith.ok_or_err {s t : State} {r : Result} (h : s.EndsWith r t) :
    (∃ out, s.EndsOk out t) ∨ ∃ code pos, code ≠ 0 ∧ s.EndsErr code pos t := by
  cases r with
  | ok out => exact .inl ⟨out, h⟩
  | err e pos => exact .inr ⟨errorCode e, pos, errorCode_ne_zero e, h⟩

/-- A read of a port that exists, of a destination cell only where it holds a byte, leaves the state as it is. -/
theorem State.hostRead_eq_next {s : State} {p : Port} (hp : p.WF s.params)
    (hdst : ∀ k, p = .dst k → (s.dst.read k).isSome) : s.hostRead p = .next s := by
  cases p with
  | cmd | srcLen | dstLen | status | errPos => rfl
  | src k => exact withCell_of_lt hp _
  | dst k => exact (withCell_of_lt hp _).trans (if_pos (hdst k rfl))

end Sys2Proof.Machine
end

section
/-! The statements of the family 20_memory.md. -/

namespace Sys2Proof.Machine

/-- Settles O10: the step is the core's turn, which runs the decoded operation; taking the turn changes neither `BUSY` nor `CMD`. -/
theorem stepRunsTheDecodedInstruction : Obligations.StepRunsTheDecodedInstruction := by
  intro s i rest hp hcore hbusy hi
  rw [step_core hp hcore]
  exact coreTurn_of_legal (s := { s with turns := rest }) hbusy hi

/-- Settles O14: every operation is the completion with its unit's result, whichever kind that is. -/
theorem everyOperationCompletesAndKeepsItsInputs : Obligations.EveryOperationCompletesAndKeepsItsInputs :=
  fun i s => ⟨_, exec_eq_complete i s, (s.complete_ends _).ok_or_err⟩

/-- Settles O19: the port passes the checks of a read, and a read that passes them leaves the state. -/
theorem hostReadsChangeNothing : Obligations.HostReadsChangeNothing := by
  intro s p rest hp ht hport hdst
  rw [step_host hp ht]
  exact State.hostRead_eq_next (s := { s with turns := rest }) hport hdst

end Sys2Proof.Machine
end

section
/-! SUPPORT. How a run goes on after its last step, and the runs of the host scripts (30_encoding.md R63) from an idle block. -/

namespace Sys2Proof.Machine

/-- A run and the step after it. -/
theorem run_then_step {s t u : State} {k : Nat} (h : Sys2Proof.core.run k s = .next t) (hstep : step t = .next u) :
    Sys2Proof.core.run (k + 1) s = .next u :=
  (run_add h 1).trans (run_succ hstep 0)

/-- A run and the fault after it. -/
theorem run_then_fault {s t : State} {k : Nat} {r : Fault} (h : Sys2Proof.core.run k s = .next t)
    (hfault : step t = .fault r) : Sys2Proof.core.run (k + 1) s = .fault r := by
  have hcore : Sys2Proof.core.step t = .fault r := hfault
  rw [run_add h 1]
  simp only [Host.Core.run, hcore]

/-- A launch by an idle block. -/
theorem step_writeCmd_of_idle {s : State} {c : Byte} {rest : List Turn} (hp : s.params.WF)
    (hidle : s.status.busy = false) (ht : s.turns = .host (.writeCmd c) :: rest) :
    step s = .next { s.launch c with turns := rest } := by
  rw [step_host hp ht, State.hostMove, State.unlessBusy_of_idle (s := { s with turns := rest }) hidle]
  rfl

/-- A read of `STATUS` only takes its turn. -/
theorem step_readStatus {s : State} {rest : List Turn} (hp : s.params.WF)
    (ht : s.turns = .host (.read .status) :: rest) : step s = .next { s with turns := rest } :=
  step_host hp ht

/-- The core's turn in a busy block is the completion with the result of `Exec` (60_exceptions.md R144). -/
theorem step_core_of_busy {s : State} {rest : List Turn} (hp : s.params.WF) (hcore : s.CoreNext rest)
    (hbusy : s.status.busy = true) :
    step s = .next (({ s with turns := rest } : State).complete
      (execResult s.cmd s.srcLen s.params.srcCap s.input)) := by
  rw [step_core hp hcore, coreTurn_eq, if_pos hbusy]
  rfl

/-- After a completion, with success or with error, the block is idle and `DONE = 1` (20_memory.md R40). -/
theorem State.complete_idle_and_done (s : State) (r : Result) :
    (s.complete r).status.busy = false ∧ (s.complete r).status.done = true := by
  cases r <;> exact ⟨rfl, rfl⟩

/-- A completion leaves the configuration and the turns to come. -/
theorem State.complete_params_and_turns (s : State) (r : Result) :
    (s.complete r).params = s.params ∧ (s.complete r).turns = s.turns := by
  cases r <;> exact ⟨rfl, rfl⟩

/-! ### `LOAD` -/

/-- The turns of a `LOAD`: the byte writes, then the length write. -/
theorem scriptLoad_turns (bytes : List Byte) (rest : List Turn) :
    (scriptLoad bytes).map Turn.host ++ rest =
      (bytes.zipIdx.map fun x => Turn.host (.writeSrc x.2 x.1)) ++ .host (.writeSrcLen bytes.length) :: rest := by
  simp [scriptLoad, Function.comp_def]

/-- The turns of a `LOAD` of more than `cap` bytes, cut before the write of cell `cap`. -/
theorem exists_scriptLoad_turns_eq {bytes : List Byte} {cap : Nat} (h : cap < bytes.length) (rest : List Turn) :
    ∃ tail, (scriptLoad bytes).map Turn.host ++ rest =
      ((bytes.take cap).zipIdx.map fun x => Turn.host (.writeSrc x.2 x.1)) ++
        .host (.writeSrc cap bytes[cap]) :: tail := by
  have hbytes : bytes = bytes.take cap ++ bytes[cap] :: bytes.drop (cap + 1) := by
    rw [← List.drop_eq_getElem_cons h, List.take_append_drop]
  have hzip : bytes.zipIdx =
      (bytes.take cap).zipIdx ++ (bytes[cap], cap) :: (bytes.drop (cap + 1)).zipIdx (cap + 1) := by
    conv_lhs => rw [hbytes]
    rw [List.zipIdx_append, List.length_take_of_le h.le, Nat.zero_add, List.zipIdx_cons]
  rw [scriptLoad_turns, hzip, List.map_append, List.map_cons, List.append_assoc, List.cons_append]
  exact ⟨_, rfl⟩

/-- A `LOAD` that fits, from an idle block: it changes the cells of its bytes and `SRC_LEN`, and no more. -/
theorem run_scriptLoad {s : State} {bytes : List Byte} {rest : List Turn} (hp : s.params.WF) (hidle : s.ScriptLegal)
    (hlen : bytes.length ≤ s.params.srcCap) (ht : s.turns = (scriptLoad bytes).map Turn.host ++ rest) :
    ∃ m, Sys2Proof.core.run (bytes.length + 1) s = .next { s with src := m, srcLen := bytes.length, turns := rest } ∧
      (∀ k, k < bytes.length → m.read k = bytes[k]?) ∧ ∀ k, bytes.length ≤ k → m.read k = s.src.read k := by
  rw [scriptLoad_turns] at ht
  obtain ⟨m, hrun, hread⟩ := run_stores bytes 0 _ s hp hidle (by omega) ht
  have hfits : s.params.fitsLen bytes.length := by
    obtain ⟨-, -, -, hcap⟩ := hp
    exact Nat.lt_of_le_of_lt hlen hcap
  have hstep := (hostWritesStoreInAnIdleBlock { s with src := m, turns := .host (.writeSrcLen bytes.length) :: rest }
    rest hp hidle).2 _ hfits rfl
  refine ⟨m, run_then_step hrun hstep, fun k hk => ?_, fun k hk => ?_⟩
  · rw [hread, if_pos (by omega), Nat.sub_zero]
  · rw [hread, if_neg (by omega)]

/-- A `LOAD` that does not fit fills `SRC` and stops at the first cell that does not exist (20_memory.md R31). -/
theorem run_scriptLoad_overlong {s : State} {bytes : List Byte} {rest : List Turn} (hp : s.params.WF)
    (hidle : s.ScriptLegal) (hlong : s.params.srcCap < bytes.length)
    (ht : s.turns = (scriptLoad bytes).map Turn.host ++ rest) :
    Sys2Proof.core.run (s.params.srcCap + 1) s = .fault (.noSuchCell s.params.srcCap) := by
  obtain ⟨tail, htail⟩ := exists_scriptLoad_turns_eq hlong rest
  have hfront : (bytes.take s.params.srcCap).length = s.params.srcCap := List.length_take_of_le hlong.le
  obtain ⟨m, hrun, -⟩ := run_stores _ 0 _ s hp hidle (by omega) (ht.trans htail)
  rw [hfront] at hrun
  have hfault := (hostAccessWithoutACellOrAByteFaults
    { s with src := m, turns := .host (.writeSrc s.params.srcCap bytes[s.params.srcCap]) :: tail } _ _ tail hp).1
    (Nat.le_refl _) (.inl rfl)
  exact run_then_fault hrun hfault

/-- A loaded input is all written (70_reset_and_hazards.md R164). -/
theorem State.Loaded.launchPremise {s : State} {bytes : List Byte} (h : s.Loaded bytes) : s.LaunchPremise := by
  obtain ⟨hlen, -, hread⟩ := h
  intro k hk
  rw [hlen] at hk
  simp [hread k hk, hk]

/-! ### `XFER` -/

/-- Under the invariant no cell below `DST_LEN` is no-value (10_state.md R18), so `XFER` skips none. -/
theorem State.Inv.map_some_dst_bytes {s : State} (h : s.Inv) :
    ((List.range s.dstLen).filterMap s.dst.read).map some = (List.range s.dstLen).map s.dst.read := by
  rw [List.map_filterMap_some_eq_filter_map_isSome, List.filter_eq_self]
  intro x hx
  obtain ⟨k, hk, rfl⟩ := List.mem_map.1 hx
  exact (h.isSome_dst_iff k).2 (List.mem_range.1 hk)

/-- Under the invariant `XFER` is the `LOAD` of the `DST_LEN` bytes of the output. -/
theorem State.Inv.exists_scriptXfer_eq {s : State} (h : s.Inv) :
    ∃ bytes, scriptXfer s = scriptLoad bytes ∧ bytes.length = s.dstLen ∧
      ∀ k, k < s.dstLen → bytes[k]? = s.dst.read k := by
  have hbytes := h.map_some_dst_bytes
  refine ⟨_, rfl, by simpa using congrArg List.length hbytes, fun k hk => ?_⟩
  have hcell : (((List.range s.dstLen).filterMap s.dst.read)[k]?).map some = some (s.dst.read k) := by
    rw [← List.getElem?_map, hbytes]
    simp [hk]
  obtain ⟨b, hb, hbk⟩ := Option.map_eq_some_iff.1 hcell
  exact hb.trans hbk

/-! ### The wait of a launch -/

/-- The reads of `STATUS` that come before the completion event leave the block as it is. -/
theorem run_scriptWait_reads {s : State} {rest : List Turn} (hp : s.params.WF) {reads k : Nat} (hk : k ≤ reads)
    (ht : s.turns = scriptWait reads ++ rest) :
    Sys2Proof.core.run k s = .next { s with turns := scriptWait (reads - k) ++ rest } := by
  induction k with
  | zero => rw [Nat.sub_zero, ← ht]; rfl
  | succ k ih =>
    refine run_then_step (ih (by omega)) (step_readStatus hp ?_)
    simp only [show reads - k = reads - (k + 1) + 1 by omega, scriptWait, List.replicate_succ, List.cons_append]

end Sys2Proof.Machine
end

section
/-! SUPPORT. The fields of the number that a host reads of `STATUS` (10_state.md R15), and the checks of a host script
(30_encoding.md R63) as statements about the fields of the state. -/

namespace Sys2Proof.Machine

/-- The register of a busy block reads 1. -/
theorem statusByte_busy : statusByte statusBusy = 1 := by decide

/-- `DONE` is bit 1, `ERR` bit 2 and `ERR_CODE` bits 4:3. -/
theorem statusByte_fields (t : Status) :
    (statusByte t).toNat / 2 % 2 = t.done.toNat ∧ (statusByte t).toNat / 4 % 2 = t.err.toNat ∧
      (statusByte t).toNat / 8 % 4 = t.errCode.toNat := by
  have hbusy := t.busy.toNat_lt
  have hdone := t.done.toNat_lt
  have herr := t.err.toNat_lt
  have hcode := t.errCode.isLt
  rw [statusByte_toNat]
  omega

theorem State.portValue_dstLen (s : State) : s.portValue .dstLen = some s.dstLen := rfl

theorem State.portValue_errPos (s : State) : s.portValue .errPos = some s.errPos := rfl

/-- Under the invariant a destination port reads a byte's number exactly where the cell holds that byte. -/
theorem State.Inv.portValue_dst_eq_iff {s : State} (h : s.Inv) (k : Nat) (b : Byte) :
    s.portValue (.dst k) = some b.toNat ↔ s.dst.read k = some b := by
  rw [h.portValue_dst, ← Option.map_some]
  exact (Option.map_injective fun _ _ => BitVec.eq_of_toNat_eq).eq_iff

theorem scriptExpect_iff (s : State) (bytes : List Byte) : scriptExpect s bytes = true ↔
    s.status.err = false ∧ s.dstLen = bytes.length ∧ ∀ k b, bytes[k]? = some b → s.dst.read k = some b := by
  simp only [scriptExpect, Bool.and_eq_true, Bool.not_eq_true', beq_iff_eq, List.all_eq_true, List.mem_range, and_assoc]
  refine and_congr_right' (and_congr_right' ⟨fun h k b hb => ?_, fun h k hk => ?_⟩)
  · rw [h k (List.getElem?_eq_some_iff.1 hb).1, hb]
  · rw [List.getElem?_eq_getElem hk]
    exact h k _ (List.getElem?_eq_getElem hk)

theorem scriptExpectErr_iff (s : State) (code : BitVec 2) (pos : Nat) : scriptExpectErr s code pos = true ↔
    s.status.err = true ∧ s.status.errCode = code ∧ s.errPos = pos ∧ s.dstLen = 0 := by
  simp [scriptExpectErr, and_assoc]

end Sys2Proof.Machine
end

section
/-! SUPPORT. The fields of a command byte (30_encoding.md R50) as numbers, and the encoder's bytes (R52). -/

namespace Sys2Proof

theorem toNat_getLsbD (c : Byte) (i : Nat) : (c.getLsbD i).toNat = c.toNat / 2 ^ i % 2 := by
  rw [← BitVec.testBit_toNat, Nat.toNat_testBit]

theorem decide_eq_getLsbD (c : Byte) (i : Nat) : decide (c.toNat / 2 ^ i % 2 = 1) = c.getLsbD i := by
  rw [← BitVec.testBit_toNat, Nat.testBit_eq_decide_div_mod_eq]

theorem extractLsb_eq_zero_iff (c : Byte) (hi lo : Nat) :
    c.extractLsb hi lo = 0#(hi - lo + 1) ↔ c.toNat / 2 ^ lo % 2 ^ (hi - lo + 1) = 0 := by
  rw [← BitVec.toNat_inj, BitVec.extractLsb_toNat, Nat.shiftRight_eq_div_pow, BitVec.toNat_zero]

/-- The bit that a flag of a decoded command stands for. -/
theorem toNat_decide_mod_two (n : Nat) : (decide (n % 2 = 1)).toNat = n % 2 := by
  rcases Nat.mod_two_eq_zero_or_one n with h | h <;> simp [h]

/-- A row of R53 that asks for some flags to be 0 answers its operation, or else a rejection. -/
theorem legal_or_illegal_of_flags (p : Prop) [Decidable p] (i : Instr) (why : Illegal) :
    if p then (if p then Decoded.legal i else .illegal why) = .legal i
    else ∃ y, (if p then Decoded.legal i else .illegal why) = .illegal y := by
  split_ifs with h
  · rfl
  · exact ⟨why, rfl⟩

theorem toNat_encode_b64enc (u np w : Bool) :
    (encode (.b64enc u np w)).toNat = 4 + 8 * u.toNat + 16 * np.toNat + 32 * w.toNat := by
  revert u np w; decide

theorem toNat_encode_b64dec (u : Bool) : (encode (.b64dec u)).toNat = 5 + 8 * u.toNat := by
  revert u; decide

theorem decode_encode (i : Instr) : decode (encode i) = .legal i := by
  cases i with
  | b16enc | b16dec | b32enc | b32dec => rfl
  | b64enc u np w => revert u np w; decide
  | b64dec u => revert u; decide

end Sys2Proof
end

section
/-! SUPPORT. Shifts, masks and joins of bytes as arithmetic, and the layouts of a whole group and of a full window (20_memory.md
R34, 40_alphabet_padding.md R82). -/

namespace Sys2Proof.Machine

theorem toNat_ushiftRight_eq_div (b : Byte) (n : Nat) : (b >>> n).toNat = b.toNat / 2 ^ n := by
  rw [BitVec.toNat_ushiftRight, Nat.shiftRight_eq_div_pow]

/-- A mask of the low bits keeps a remainder; these are the masks of R59 and R60. -/
theorem toNat_and_mask (b : Byte) :
    (b &&& 0x01).toNat = b.toNat % 2 ∧ (b &&& 0x03).toNat = b.toNat % 4 ∧ (b &&& 0x07).toNat = b.toNat % 8 ∧
      (b &&& 0x0F).toNat = b.toNat % 16 ∧ (b &&& 0x1F).toNat = b.toNat % 32 ∧ (b &&& 0x3F).toNat = b.toNat % 64 :=
  ⟨Nat.and_two_pow_sub_one_eq_mod _ 1, Nat.and_two_pow_sub_one_eq_mod _ 2, Nat.and_two_pow_sub_one_eq_mod _ 3,
    Nat.and_two_pow_sub_one_eq_mod _ 4, Nat.and_two_pow_sub_one_eq_mod _ 5, Nat.and_two_pow_sub_one_eq_mod _ 6⟩

/-- A field shifted above `n` low bits and a field within them do not overlap, so their join is their sum. -/
theorem toNat_shiftLeft_or {hi lo : Byte} {n : Nat} (hn : n ≤ 8) (hlo : lo.toNat < 2 ^ n) :
    ((hi <<< n) ||| lo).toNat = hi.toNat * 2 ^ n % 256 + lo.toNat := by
  have hshift : hi.toNat * 2 ^ n % 256 = 2 ^ n * (hi.toNat % 2 ^ (8 - n)) := by
    rw [Nat.mul_comm, ← Nat.mul_mod_mul_left, ← Nat.pow_add, Nat.add_sub_cancel' hn]
  rw [BitVec.toNat_or, BitVec.toNat_shiftLeft, Nat.shiftLeft_eq, hshift, Nat.two_pow_add_eq_or_of_lt hlo]

/-- The join of three fields. -/
theorem toNat_shiftLeft_or_shiftLeft_or {hi mid lo : Byte} {m n : Nat} (hm : m ≤ 8) (hn : n ≤ 8)
    (hlo : lo.toNat < 2 ^ n) (hmid : mid.toNat * 2 ^ n % 256 + lo.toNat < 2 ^ m) :
    ((hi <<< m) ||| (mid <<< n) ||| lo).toNat = hi.toNat * 2 ^ m % 256 + (mid.toNat * 2 ^ n % 256 + lo.toNat) := by
  rw [← toNat_shiftLeft_or hn hlo] at hmid ⊢
  rw [BitVec.or_assoc, toNat_shiftLeft_or hm hmid]

/-- An index is the field of the group string that ends `Bits * (j + 1)` bits below its top, whichever the codec. -/
theorem symbolIndex_eq {c : Codec} {j : Nat} (group : List Byte) (hj : j < symCount c) :
    symbolIndex c group j =
      groupString c group / 2 ^ (8 * rawCount c - symBits c * (j + 1)) % 2 ^ symBits c := by
  unfold symbolIndex slice
  congr 2
  cases c <;> simp only [symCount, rawCount, symBits] at * <;> omega

/-- A full window gives the bytes of its `Bits * Syms = 8 * Raw` bits, whichever the codec. -/
theorem windowBytes_full {c : Codec} {is : List Nat} (h : is.length = symCount c) :
    windowBytes c is = (List.range (rawCount c)).map fun k =>
      BitVec.ofNat 8 (concatBits (symBits c) is / 2 ^ (8 * rawCount c - 8 * (k + 1)) % 2 ^ 8) := by
  have hbytes : bytesFrom c is.length = rawCount c := by rw [h]; cases c <;> rfl
  have hwidth : symBits c * is.length = 8 * rawCount c := by rw [h]; cases c <;> rfl
  simp only [windowBytes, hbytes, hwidth]
  refine List.map_congr_left fun k hk => ?_
  have hk : k < rawCount c := List.mem_range.1 hk
  rw [slice, show 8 * rawCount c - 1 - 8 * k + 1 - (8 * rawCount c - 8 * (k + 1)) = 8 by omega]

theorem groupString_base32 (b0 b1 b2 b3 b4 : Byte) : groupString .base32 [b0, b1, b2, b3, b4] =
    b0.toNat * 2 ^ 32 + b1.toNat * 2 ^ 24 + b2.toNat * 2 ^ 16 + b3.toNat * 2 ^ 8 + b4.toNat := by
  show ((((0 * 2 ^ 8 + b0.toNat) * 2 ^ 8 + b1.toNat) * 2 ^ 8 + b2.toNat) * 2 ^ 8 + b3.toNat) * 2 ^ 8 + b4.toNat = _
  omega

theorem groupString_base64 (b0 b1 b2 : Byte) : groupString .base64 [b0, b1, b2] =
    b0.toNat * 2 ^ 16 + b1.toNat * 2 ^ 8 + b2.toNat := by
  show ((0 * 2 ^ 8 + b0.toNat) * 2 ^ 8 + b1.toNat) * 2 ^ 8 + b2.toNat = _
  omega

/-- `V[39-5j : 35-5j]` (30_encoding.md R59). -/
theorem symbolIndex_base32 (b0 b1 b2 b3 b4 : Byte) {j : Nat} (hj : j < 8) : symbolIndex .base32 [b0, b1, b2, b3, b4] j =
    (b0.toNat * 2 ^ 32 + b1.toNat * 2 ^ 24 + b2.toNat * 2 ^ 16 + b3.toNat * 2 ^ 8 + b4.toNat) / 2 ^ (35 - 5 * j) % 32 := by
  have hlow : 8 * rawCount .base32 - symBits .base32 * (j + 1) = 35 - 5 * j := by simp only [rawCount, symBits]; omega
  rw [symbolIndex_eq _ hj, groupString_base32, hlow]
  rfl

/-- `V[23-6j : 18-6j]` (30_encoding.md R60). -/
theorem symbolIndex_base64 (b0 b1 b2 : Byte) {j : Nat} (hj : j < 4) : symbolIndex .base64 [b0, b1, b2] j =
    (b0.toNat * 2 ^ 16 + b1.toNat * 2 ^ 8 + b2.toNat) / 2 ^ (18 - 6 * j) % 64 := by
  have hlow : 8 * rawCount .base64 - symBits .base64 * (j + 1) = 18 - 6 * j := by simp only [rawCount, symBits]; omega
  rw [symbolIndex_eq _ hj, groupString_base64, hlow]
  rfl

end Sys2Proof.Machine
end

section
/-! The statements of the family 30_encoding.md. -/

namespace Sys2Proof.Machine

/-- Settles O1: the reserved bits are looked at first, then the bits of `CODEC` and `DIR` select the row. -/
theorem commandDecodeIsTheDecodeTable : Obligations.CommandDecodeIsTheDecodeTable := by
  intro c reserved flags codec dir u np w
  have hreserved : c.extractLsb 7 6 = 0#2 ↔ reserved = 0 :=
    (extractLsb_eq_zero_iff c 7 6).trans (by have := c.isLt; omega)
  have hflags : c.extractLsb 5 3 = 0#3 ↔ flags = 0 := extractLsb_eq_zero_iff c 5 3
  have hencFlags : c.extractLsb 5 4 = 0#2 ↔ flags / 2 = 0 := (extractLsb_eq_zero_iff c 5 4).trans (by omega)
  have hcodec : codec = 2 * (c.getLsbD 2).toNat + (c.getLsbD 1).toNat := by
    rw [toNat_getLsbD, toNat_getLsbD]; omega
  have hdir : dir = (c.getLsbD 0).toNat := by rw [toNat_getLsbD]; omega
  have hu : u = c.getLsbD 3 := decide_eq_getLsbD c 3
  have hnp : np = c.getLsbD 4 := decide_eq_getLsbD c 4
  have hw : w = c.getLsbD 5 := decide_eq_getLsbD c 5
  by_cases hlegal : reserved = 0
  case neg => rw [if_pos hlegal]; exact ⟨_, if_pos (mt hreserved.1 hlegal)⟩
  rw [if_neg (not_not.2 hlegal), decode, if_neg (not_not.2 (hreserved.2 hlegal))]
  simp only [hcodec, hdir, hu, hnp, hw, ← hflags, ← hencFlags]
  cases c.getLsbD 2 with
  | false => cases c.getLsbD 1 <;> cases c.getLsbD 0 <;> exact legal_or_illegal_of_flags ..
  | true =>
    cases c.getLsbD 1 with
    | false =>
      cases c.getLsbD 0 with
      | false => rfl
      | true => exact legal_or_illegal_of_flags ..
    | true => exact ⟨_, rfl⟩

/-- In each legal row of R53 the fields leave one byte, the encoder's. -/
theorem encode_of_decode {c : Byte} {i : Instr} (h : decode c = .legal i) : encode i = c := by
  have hrow := commandDecodeIsTheDecodeTable c
  simp only [h, Decoded.legal.injEq, reduceCtorEq, exists_false, if_false_left, if_false_right, not_not] at hrow
  obtain ⟨hreserved, hrow⟩ := hrow
  apply BitVec.eq_of_toNat_eq
  split_ifs at hrow
  · obtain ⟨hflags, rfl⟩ := hrow; show 0 = c.toNat; omega
  · obtain ⟨hflags, rfl⟩ := hrow; show 1 = c.toNat; omega
  · obtain ⟨hflags, rfl⟩ := hrow; show 2 = c.toNat; omega
  · obtain ⟨hflags, rfl⟩ := hrow; show 3 = c.toNat; omega
  · subst hrow; simp only [toNat_encode_b64enc, toNat_decide_mod_two]; omega
  · obtain ⟨hfields, hflags, rfl⟩ := hrow; simp only [toNat_encode_b64dec, toNat_decide_mod_two]; omega

/-- Settles O2: each listed byte is the encoder's byte of the operation beside it. -/
theorem commandWordsDecodeAsListed : Obligations.CommandWordsDecodeAsListed :=
  ⟨decode_encode .b16enc, decode_encode .b16dec, decode_encode .b32enc, decode_encode .b32dec,
    decode_encode (.b64enc false false false), decode_encode (.b64enc true false false),
    decode_encode (.b64enc false true false), decode_encode (.b64enc true true false),
    decode_encode (.b64enc false false true), decode_encode (.b64enc true false true),
    decode_encode (.b64enc false true true), decode_encode (.b64enc true true true),
    decode_encode (.b64dec false), decode_encode (.b64dec true)⟩

/-- Settles O3: encoding then decoding by the flags' values, decoding then encoding by the table of R53. -/
theorem commandDecodeAndEncodeAgree : Obligations.CommandDecodeAndEncodeAgree :=
  ⟨decode_encode, fun _ _ => encode_of_decode⟩

/-- Settles O22: the byte writes and the length write leave a loaded input, which is all written. -/
theorem loadScriptLoadsTheInput : Obligations.LoadScriptLoadsTheInput := by
  intro s bytes rest hp hidle hlen ht
  obtain ⟨m, hrun, hread, hkept⟩ := run_scriptLoad hp hidle hlen ht
  have hloaded : ({ s with src := m, srcLen := bytes.length, turns := rest } : State).Loaded bytes :=
    ⟨rfl, hlen, hread⟩
  exact ⟨_, hrun, hloaded, hloaded.launchPremise, hkept, rfl⟩

/-- Settles O30: both sides of each table entry are the same quotients and remainders of the bytes, or of the indices. -/
theorem base32GroupTablesAreAsTabulated : Obligations.Base32GroupTablesAreAsTabulated := by
  refine ⟨fun b0 b1 b2 b3 b4 => ⟨?_, fun j hj => symbolIndex_base32 b0 b1 b2 b3 b4 hj⟩,
    fun s0 s1 s2 s3 s4 s5 s6 s7 h0 h1 h2 h3 h4 h5 h6 h7 => ?_⟩
  · rw [List.map_congr_left fun j hj => symbolIndex_base32 b0 b1 b2 b3 b4 (List.mem_range.1 hj)]
    simp (disch := bv_omega) only [toNat_shiftLeft_or, toNat_ushiftRight_eq_div, toNat_and_mask]
    show [_, _, _, _, _, _, _, _] = _
    simp only [List.cons.injEq, and_true]
    refine ⟨?_, ?_, ?_, ?_, ?_, ?_, ?_, ?_⟩ <;> omega
  · rw [windowBytes_full rfl]
    show [_, _, _, _, _] = _
    simp only [rawCount, symBits, concatBits, List.map_cons, List.map_nil, List.foldl_cons, List.foldl_nil,
      List.cons.injEq, and_true, ← BitVec.toNat_inj, BitVec.toNat_ofNat]
    simp (disch := bv_omega) only [toNat_shiftLeft_or, toNat_shiftLeft_or_shiftLeft_or, toNat_ushiftRight_eq_div,
      toNat_and_mask]
    refine ⟨?_, ?_, ?_, ?_, ?_⟩ <;> bv_omega

/-- Settles O31: both sides of each formula are the same quotients and remainders of the bytes, or of the indices. -/
theorem base64GroupTablesAreTheFormulas : Obligations.Base64GroupTablesAreTheFormulas := by
  refine ⟨fun b0 b1 b2 => ⟨?_, fun j hj => symbolIndex_base64 b0 b1 b2 hj⟩, fun s0 s1 s2 s3 h0 h1 h2 h3 => ?_⟩
  · rw [List.map_congr_left fun j hj => symbolIndex_base64 b0 b1 b2 (List.mem_range.1 hj)]
    simp (disch := bv_omega) only [toNat_shiftLeft_or, toNat_ushiftRight_eq_div, toNat_and_mask]
    show [_, _, _, _] = _
    simp only [List.cons.injEq, and_true]
    refine ⟨?_, ?_, ?_, ?_⟩ <;> omega
  · rw [windowBytes_full rfl]
    show [_, _, _] = _
    simp only [rawCount, symBits, concatBits, List.map_cons, List.map_nil, List.foldl_cons, List.foldl_nil,
      List.cons.injEq, and_true, ← BitVec.toNat_inj, BitVec.toNat_ofNat]
    simp (disch := bv_omega) only [toNat_shiftLeft_or, toNat_ushiftRight_eq_div, toNat_and_mask]
    refine ⟨?_, ?_, ?_⟩ <;> bv_omega

/-- Settles O55: the launch, the reads before the core's turn, the completion, and the read that ends the wait. -/
theorem launchScriptWaitsForItsCompletion : Obligations.LaunchScriptWaitsForItsCompletion := by
  intro s c reads rest hp hidle hscript
  have ht : s.turns = .host (.writeCmd c) :: (scriptWait reads ++ rest) := by
    rcases hscript with ht | ⟨i, rfl, ht⟩ <;> exact ht
  have hwait : ∀ k, k ≤ reads → Sys2Proof.core.run (k + 1) s =
      .next { s.launch c with turns := scriptWait (reads - k) ++ rest } := fun k hk =>
    (run_succ (step_writeCmd_of_idle hp hidle ht) k).trans
      (run_scriptWait_reads (s := { s.launch c with turns := scriptWait reads ++ rest }) hp hk rfl)
  refine ⟨fun k hk => ⟨_, hwait k hk, rfl, congrArg (some ∘ BitVec.toNat) statusByte_busy, rfl⟩, ?_⟩
  intro u
  have hcomplete : Sys2Proof.core.run (reads + 2) s =
      .next (u.complete (execResult c s.srcLen s.params.srcCap u.input)) := by
    refine run_then_step (hwait reads (Nat.le_refl _)) (step_core_of_busy hp (.inl ?_) rfl)
    rw [Nat.sub_self]
    rfl
  obtain ⟨hnotBusy, hdone⟩ := u.complete_idle_and_done (execResult c s.srcLen s.params.srcCap u.input)
  obtain ⟨hparams, hturns⟩ := u.complete_params_and_turns (execResult c s.srcLen s.params.srcCap u.input)
  exact ⟨_, hcomplete, u.complete_ends _, hdone, hnotBusy,
    run_then_step hcomplete (step_readStatus (by rw [hparams]; exact hp) hturns)⟩

/-- Settles O56: `XFER` is the `LOAD` of the output, which either fits or stops at cell `SRC_CAP`. -/
theorem xferScriptLoadsTheOutput : Obligations.XferScriptLoadsTheOutput := by
  intro s rest h hidle ht
  obtain ⟨bytes, hscript, hlen, hbytes⟩ := h.exists_scriptXfer_eq
  rw [hscript] at ht
  refine ⟨fun hfits => ?_, fun hlong => run_scriptLoad_overlong h.params hidle (hlen ▸ hlong) ht⟩
  obtain ⟨m, hrun, hread, hkept⟩ := run_scriptLoad h.params hidle (hlen ▸ hfits) ht
  rw [hlen] at hrun hread hkept
  have hloaded : ({ s with src := m, srcLen := s.dstLen, turns := rest } : State).Loaded bytes :=
    ⟨hlen.symm, hlen ▸ hfits, hlen ▸ hread⟩
  exact ⟨_, hrun, hloaded.launchPremise, fun k hk => (hread k hk).trans (hbytes k hk), hkept, rfl⟩

/-- Settles O57: each check is a statement about fields that the ports give. -/
theorem scriptChecksAreOfWhatTheHostReads : Obligations.ScriptChecksAreOfWhatTheHostReads := by
  intro s h
  obtain ⟨hdone, herr, hcode⟩ := statusByte_fields s.status
  refine ⟨_, rfl, ?_, ?_, fun bytes => ?_, fun code pos => ?_⟩
  · rw [hdone, Bool.toNat_eq_one, scriptWaitEnds]
  · rw [herr, Bool.toNat_eq_one, scriptIfErr]
  · simp only [herr, Bool.toNat_eq_zero, scriptExpect_iff, h.portValue_dst_eq_iff, State.portValue_dstLen,
      Option.some.injEq]
  · rw [herr, hcode, Bool.toNat_eq_one, BitVec.toNat_inj, scriptExpectErr_iff]
    simp only [State.portValue_errPos, State.portValue_dstLen, Option.some.injEq]

end Sys2Proof.Machine
end

section
/-! SUPPORT. The alphabet ROMs and their reverse lookups entry by entry, and the data positions of a group
(40_alphabet_padding.md R70 to R76, R81). -/

namespace Sys2Proof.Machine

/-! ### The ROMs -/

@[simp] theorem byteRun_length (first n : Nat) : (byteRun first n).length = n := by simp [byteRun]

/-- A run that stays below 256 holds at entry `k` the byte of value `first + k`. -/
theorem byteRun_getElem?_eq_some_iff {first n : Nat} (h : first + n ≤ 256) (k : Nat) (b : Byte) :
    (byteRun first n)[k]? = some b ↔ k < n ∧ b.toNat = first + k := by
  rw [byteRun, List.getElem?_map, Option.map_eq_some_iff]
  simp only [List.getElem?_eq_some_iff, List.length_range, List.getElem_range, ← BitVec.toNat_inj, BitVec.toNat_ofNat]
  constructor
  · rintro ⟨i, ⟨hi, rfl⟩, hb⟩
    omega
  · rintro ⟨hk, hb⟩
    exact ⟨k, ⟨hk, rfl⟩, by omega⟩

/-- An entry of two tables laid one after the other is one of the first, or one of the second behind the first's length. -/
theorem getElem?_append_eq_some_iff {α : Type} (xs ys : List α) (k : Nat) (x : α) :
    (xs ++ ys)[k]? = some x ↔ xs[k]? = some x ∨ (xs.length ≤ k ∧ ys[k - xs.length]? = some x) := by
  rcases Nat.lt_or_ge k xs.length with hk | hk
  · simp [List.getElem?_append_left hk, Nat.not_le.2 hk]
  · simp [List.getElem?_append_right hk, hk]

theorem getElem?_pair_eq_some_iff (x y : Byte) (k : Nat) (b : Byte) :
    [x, y][k]? = some b ↔ (k = 0 ∧ b.toNat = x.toNat) ∨ (k = 1 ∧ b.toNat = y.toNat) := by
  match k with
  | 0 | 1 => simp [BitVec.toNat_inj, eq_comm]
  | k + 2 => simp

@[simp] theorem base64Common_length : base64Common.length = 62 := by simp [base64Common]

/-- Each ROM has the size of its alphabet (R74). -/
theorem rom_length (sel : Alphabet) : (rom sel).length = alphabetSize sel := by
  cases sel <;> simp [rom, alphabetSize]

/-- R70: the digits, then `A..F`. -/
theorem rom_a16_getElem?_eq_some_iff (k : Nat) (b : Byte) : (rom .a16)[k]? = some b ↔
    (k < 10 ∧ b.toNat = 0x30 + k) ∨ (10 ≤ k ∧ k < 16 ∧ b.toNat = 0x41 + (k - 10)) := by
  rw [rom, getElem?_append_eq_some_iff, byteRun_getElem?_eq_some_iff (by decide),
    byteRun_getElem?_eq_some_iff (by decide), byteRun_length]
  omega

/-- R71: `A..Z`, then `2..7`. -/
theorem rom_a32_getElem?_eq_some_iff (k : Nat) (b : Byte) : (rom .a32)[k]? = some b ↔
    (k < 26 ∧ b.toNat = 0x41 + k) ∨ (26 ≤ k ∧ k < 32 ∧ b.toNat = 0x32 + (k - 26)) := by
  rw [rom, getElem?_append_eq_some_iff, byteRun_getElem?_eq_some_iff (by decide),
    byteRun_getElem?_eq_some_iff (by decide), byteRun_length]
  omega

/-- What R72 and R73 share: `A..Z`, `a..z`, then the digits. -/
theorem base64Common_getElem?_eq_some_iff (k : Nat) (b : Byte) : base64Common[k]? = some b ↔
    (k < 26 ∧ b.toNat = 0x41 + k) ∨ (26 ≤ k ∧ k < 52 ∧ b.toNat = 0x61 + (k - 26)) ∨
      (52 ≤ k ∧ k < 62 ∧ b.toNat = 0x30 + (k - 52)) := by
  rw [base64Common, getElem?_append_eq_some_iff, getElem?_append_eq_some_iff, List.length_append,
    byteRun_getElem?_eq_some_iff (by decide), byteRun_getElem?_eq_some_iff (by decide),
    byteRun_getElem?_eq_some_iff (by decide), byteRun_length, byteRun_length]
  omega

/-- The two special symbols of a base64 alphabet follow what the two share. -/
theorem base64Common_append_getElem?_eq_some_iff (x y : Byte) (k : Nat) (b : Byte) :
    (base64Common ++ [x, y])[k]? = some b ↔
      base64Common[k]? = some b ∨ (k = 62 ∧ b.toNat = x.toNat) ∨ (k = 63 ∧ b.toNat = y.toNat) := by
  rw [getElem?_append_eq_some_iff, getElem?_pair_eq_some_iff, base64Common_length]
  exact or_congr_right (by omega)

/-! ### The reverse lookup -/

/-- The reverse lookup that the base64 alphabets share inverts the part of the ROMs that they share. -/
theorem alphDecBase64Common_eq_some_iff (b : Byte) (k : Nat) :
    alphDecBase64Common b.toNat = some k ↔ base64Common[k]? = some b := by
  rw [base64Common_getElem?_eq_some_iff]
  simp only [alphDecBase64Common, ite_eq_iff, Option.some.injEq, reduceCtorEq, and_false, or_false]
  omega

/-- The special symbols of an alphabet are two bytes outside the shared part, and neither is the pad symbol. -/
theorem alphDecBase64_eq_val_iff {c62 c63 : Nat} (h62 : alphDecBase64Common c62 = none)
    (h63 : alphDecBase64Common c63 = none) (hne : c62 ≠ c63) (hpad62 : c62 ≠ 0x3D) (hpad63 : c63 ≠ 0x3D) (c k : Nat) :
    alphDecBase64 c62 c63 c = .val k ↔ alphDecBase64Common c = some k ∨ (k = 62 ∧ c = c62) ∨ (k = 63 ∧ c = c63) := by
  rw [alphDecBase64]
  by_cases hpad : c = 0x3D
  · have hnone : alphDecBase64Common 0x3D = none := by decide
    simp [hpad, hnone, hpad62.symm, hpad63.symm]
  · cases hc : alphDecBase64Common c with
    | some i =>
      have hc62 : c ≠ c62 := by rintro rfl; simp [h62] at hc
      have hc63 : c ≠ c63 := by rintro rfl; simp [h63] at hc
      simp [hpad, hc62, hc63]
    | none =>
      simp only [hpad, if_false, ite_eq_iff, Lookup.val.injEq, reduceCtorEq, and_false, or_false, false_or]
      omega

theorem alphDecBase64_eq_pad_iff (c62 c63 c : Nat) : alphDecBase64 c62 c63 c = .pad ↔ c = 0x3D := by
  rw [alphDecBase64]
  by_cases hpad : c = 0x3D
  · simp [hpad]
  · cases alphDecBase64Common c <;> simp [hpad, ite_eq_iff]

/-- R75: the reverse lookup answers `Val(k)` exactly for the symbol at entry `k` of its ROM. -/
theorem alphDec_eq_val_iff (sel : Alphabet) (b : Byte) (k : Nat) : alphDec sel b = .val k ↔ (rom sel)[k]? = some b := by
  cases sel with
  | a16 =>
    simp only [rom_a16_getElem?_eq_some_iff, alphDec, ite_eq_iff, Lookup.val.injEq, reduceCtorEq, and_false, or_false]
    omega
  | a32 =>
    simp only [rom_a32_getElem?_eq_some_iff, alphDec, ite_eq_iff, Lookup.val.injEq, reduceCtorEq, and_false,
      or_false, false_or]
    omega
  | a64s | a64u =>
    rw [alphDec, alphDecBase64_eq_val_iff rfl rfl (by decide) (by decide) (by decide), rom,
      base64Common_append_getElem?_eq_some_iff, alphDecBase64Common_eq_some_iff]
    rfl

/-- R75: the pad symbol is `=`, and base16 has none. -/
theorem alphDec_eq_pad_iff (sel : Alphabet) (b : Byte) : alphDec sel b = .pad ↔ b = 0x3D ∧ sel ≠ .a16 := by
  have hpad : b = 0x3D ↔ b.toNat = 0x3D := BitVec.toNat_inj.symm
  rw [hpad]
  cases sel with
  | a16 | a32 => simp [alphDec, ite_eq_iff]
  | a64s | a64u => simp [alphDec, alphDecBase64_eq_pad_iff]

/-- R76: the fold subtracts `0x20` from the lower-case letters. -/
theorem toNat_fold (c : Byte) :
    (fold c).toNat = if 0x61 ≤ c.toNat ∧ c.toNat ≤ 0x7A then c.toNat - 0x20 else c.toNat := by
  unfold fold
  split_ifs
  · bv_omega
  · rfl

/-! ### The data positions of a group -/

theorem symBits_pos (c : Codec) : 0 < symBits c := by cases c <;> decide

theorem lt_ceilDiv_iff {a b : Nat} (hb : 0 < b) (j : Nat) : j < ceilDiv a b ↔ j * b < a := by
  rw [ceilDiv, ← Nat.succ_le_iff, Nat.le_div_iff_mul_le hb, Nat.succ_mul]
  omega

/-- R81: the data positions are the first `DataSyms`, for every codec, position and number of bytes. -/
theorem isData_iff (c : Codec) (j r : Nat) : isData c j r = true ↔ j < dataSyms c r := by
  rw [isData, decide_eq_true_iff, dataSyms, lt_ceilDiv_iff (symBits_pos c), Nat.div_lt_iff_lt_mul (by decide),
    Nat.mul_comm r]

end Sys2Proof.Machine
end

section
/-! SETTLED. The alphabets, their reverse lookup, the base16 fold and the padding tables. -/

namespace Sys2Proof.Machine

/-- Settles O26: the sizes are the alphabets', and each entry is the one of its rule. -/
theorem romContentsAreAsTabulated : Obligations.RomContentsAreAsTabulated := by
  refine ⟨rom_length _, rom_length _, rom_length _, rom_length _, fun k hk => ?_, fun k hk => ?_, fun k hk => ?_,
    fun k hk => ?_, rfl, rfl, rfl, rfl⟩
  · rw [rom_a16_getElem?_eq_some_iff, BitVec.toNat_ofNat]
    split_ifs <;> omega
  · rw [rom_a32_getElem?_eq_some_iff, BitVec.toNat_ofNat]
    split_ifs <;> omega
  · rw [rom, base64Common_append_getElem?_eq_some_iff, base64Common_getElem?_eq_some_iff, BitVec.toNat_ofNat]
    split_ifs <;> omega
  · have hcommon : k < base64Common.length := by rwa [base64Common_length]
    exact (List.getElem?_append_left hcommon).trans (List.getElem?_append_left hcommon).symm

/-- Settles O27: in each alphabet the ranges of the lookup are the ranges of the ROM, and only `=` is a pad. -/
theorem reverseLookupInvertsTheRoms : Obligations.ReverseLookupInvertsTheRoms := fun sel c =>
  ⟨alphDec_eq_val_iff sel c, alphDec_eq_pad_iff sel c⟩

/-- Settles O28: a folded lower-case letter is looked up as its capital, and any other byte as itself. -/
theorem foldedHexDigitsAreExactlyTheAccepted : Obligations.FoldedHexDigitsAreExactlyTheAccepted := by
  refine fun c => ⟨toNat_fold c, ?_⟩
  by_cases hlower : 0x61 ≤ c.toNat ∧ c.toNat ≤ 0x7A
  · have hdigit : ¬ (0x30 ≤ c.toNat ∧ c.toNat ≤ 0x39) := by omega
    have hupper : ¬ (0x41 ≤ c.toNat ∧ c.toNat ≤ 0x46) := by omega
    have hfoldedDigit : ¬ (0x30 ≤ c.toNat - 0x20 ∧ c.toNat - 0x20 ≤ 0x39) := by omega
    have hfolded : 0x41 ≤ c.toNat - 0x20 ∧ c.toNat - 0x20 ≤ 0x46 ↔ 0x61 ≤ c.toNat ∧ c.toNat ≤ 0x66 := by omega
    simp only [alphDec, toNat_fold, if_pos hlower, if_neg hdigit, if_neg hupper, if_neg hfoldedDigit, hfolded]
    split_ifs
    · exact congrArg Lookup.val (by omega)
    · rfl
  · have hnotLower : ¬ (0x61 ≤ c.toNat ∧ c.toNat ≤ 0x66) := by omega
    simp only [alphDec, toNat_fold, if_neg hlower, if_neg hnotLower]
    split_ifs
    · rfl
    · exact congrArg Lookup.val (by omega)
    · rfl

/-- Settles O29: the tables are finite, and `IsData` is `j < DataSyms` throughout. -/
theorem paddingTablesAreAsTabulated : Obligations.PaddingTablesAreAsTabulated :=
  ⟨rfl, rfl, rfl, rfl, rfl, rfl, rfl, rfl, fun c j r _ _ _ => isData_iff c j r⟩

end Sys2Proof.Machine
end

section
/-! SUPPORT. How an operation ends on a loaded and on an over-long input (60_exceptions.md R143, R144), and the two directions of
an alphabet lookup for whole texts (40_alphabet_padding.md R74, R75). -/

namespace Sys2Proof.Machine

/-- On a loaded input an operation ends with the result of its unit on these bytes (60_exceptions.md R144). -/
theorem State.Loaded.exec_ends {s : State} {bytes : List Byte} (h : s.Loaded bytes) (i : Instr) :
    ∃ t, exec i s = .next t ∧ s.EndsWith (unitResult i bytes) t := by
  refine ⟨_, exec_eq_complete i s, ?_⟩
  rw [h.resultOf_eq]
  exact s.complete_ends _

/-- On an over-long input an operation ends with `IllegalCommand` (60_exceptions.md R143). -/
theorem exec_ends_of_overlong {s : State} (h : s.params.srcCap < s.srcLen) (i : Instr) :
    ∃ t, exec i s = .next t ∧ s.EndsErr 3 0 t := by
  refine ⟨_, exec_eq_complete i s, ?_⟩
  rw [State.resultOf_overlong h]
  exact s.completeErr_ends _ _

/-- Within the alphabet the forward lookup is the ROM's entry (R74). -/
theorem rom_getElem?_of_lt {sel : Alphabet} {i : Nat} (h : i < alphabetSize sel) :
    (rom sel)[i]? = some (alphEnc sel i) := by
  rw [← rom_length] at h
  simp [alphEnc, h]

/-- The reverse lookup answers `Val(i)` exactly for the symbol that the forward lookup gives an index of the alphabet. -/
theorem alphDec_eq_val_iff_alphEnc (sel : Alphabet) (b : Byte) (i : Nat) :
    alphDec sel b = .val i ↔ i < alphabetSize sel ∧ b = alphEnc sel i := by
  rw [alphDec_eq_val_iff]
  by_cases hi : i < alphabetSize sel
  · simp [rom_getElem?_of_lt hi, hi, eq_comm]
  · simp [hi, rom_length]

/-- A text looks up to a list of indices exactly when they are indices of the alphabet and the text is their symbols. -/
theorem map_alphDec_eq_map_val_iff (sel : Alphabet) (text : List Byte) (is : List Nat) :
    text.map (alphDec sel) = is.map .val ↔ (∀ i ∈ is, i < alphabetSize sel) ∧ text = is.map (alphEnc sel) := by
  induction is generalizing text with
  | nil => simp
  | cons i is ih =>
    cases text with
    | nil => simp
    | cons b text =>
      simp only [List.map_cons, List.cons.injEq, alphDec_eq_val_iff_alphEnc, ih, List.forall_mem_cons]
      exact and_and_and_comm

end Sys2Proof.Machine
end

section
/-! SUPPORT. The base16 units (41_base16.md): the nibbles of a byte sequence, the symbol check, and the two units in terms of
them. -/

namespace Sys2Proof.Machine

/-! ### Nibbles -/

/-- The nibbles of the bytes in order, the high one of each byte first (R90). -/
def nibbles (bytes : List Byte) : List Nat := bytes.flatMap fun b => [b.toNat / 16, b.toNat % 16]

@[simp] theorem nibbles_nil : nibbles [] = [] := rfl

@[simp] theorem nibbles_cons (b : Byte) (bytes : List Byte) :
    nibbles (b :: bytes) = b.toNat / 16 :: b.toNat % 16 :: nibbles bytes := rfl

@[simp] theorem nibbles_length (bytes : List Byte) : (nibbles bytes).length = 2 * bytes.length := by
  induction bytes with
  | nil => rfl
  | cons b bytes ih => simp only [nibbles_cons, List.length_cons, ih]; omega

theorem lt_of_mem_nibbles {bytes : List Byte} {i : Nat} (h : i ∈ nibbles bytes) : i < 16 := by
  simp only [nibbles, List.mem_flatMap, List.mem_cons, List.not_mem_nil, or_false] at h
  obtain ⟨b, -, rfl | rfl⟩ := h <;> omega

/-- Byte `k` stands at the nibbles `2k` and `2k+1`. -/
theorem nibbles_getElem? {bytes : List Byte} {k : Nat} {b : Byte} (h : bytes[k]? = some b) :
    (nibbles bytes)[2 * k]? = some (b.toNat / 16) ∧ (nibbles bytes)[2 * k + 1]? = some (b.toNat % 16) := by
  induction bytes generalizing k with
  | nil => simp at h
  | cons c bytes ih =>
    cases k with
    | zero => simp_all
    | succ k => simpa [Nat.mul_succ] using ih (by simpa using h)

/-- Two nibbles join without overlap (R92). -/
theorem toNat_join_nibbles {hi lo : Nat} (hhi : hi < 16) (hlo : lo < 16) :
    (BitVec.ofNat 8 ((hi <<< 4) ||| lo)).toNat = 16 * hi + lo := by
  rw [Nat.shiftLeft_eq, Nat.mul_comm, ← Nat.two_pow_add_eq_or_of_lt (i := 4) hlo, BitVec.toNat_ofNat]
  omega

/-- The join of the indices `2k` and `2k+1` is byte `k` (R92). -/
theorem joinNibbles_getElem? {is : List Nat} {k hi lo : Nat} (hhi : is[2 * k]? = some hi)
    (hlo : is[2 * k + 1]? = some lo) : (joinNibbles is)[k]? = some (BitVec.ofNat 8 ((hi <<< 4) ||| lo)) := by
  induction is using joinNibbles.induct generalizing k with
  | case1 i j rest ih =>
    cases k with
    | zero => simp_all [joinNibbles]
    | succ k => exact ih (k := k) hhi hlo
  | case2 i => simp at hlo
  | case3 => simp at hhi

theorem joinNibbles_nibbles (bytes : List Byte) : joinNibbles (nibbles bytes) = bytes := by
  induction bytes with
  | nil => rfl
  | cons b bytes ih =>
    have hjoin : BitVec.ofNat 8 ((b.toNat / 16) <<< 4 ||| b.toNat % 16) = b := by
      rw [← BitVec.toNat_inj, toNat_join_nibbles (by omega) (by omega)]
      omega
    rw [nibbles_cons, joinNibbles, hjoin, ih]

theorem nibbles_joinNibbles {is : List Nat} (heven : is.length % 2 = 0) (hlt : ∀ i ∈ is, i < 16) :
    nibbles (joinNibbles is) = is := by
  induction is using joinNibbles.induct with
  | case1 hi lo rest ih =>
    simp only [List.forall_mem_cons] at hlt
    obtain ⟨hhi, hlo, hrest⟩ := hlt
    have hjoin := toNat_join_nibbles hhi hlo
    rw [joinNibbles, nibbles_cons, ih (by simp at heven; omega) hrest, hjoin]
    congr 2 <;> omega
  | case2 i => simp at heven
  | case3 => rfl

/-! ### The symbol check of `B16DEC` -/

theorem hexIndices_cons_of_val {b : Byte} {i : Nat} (h : alphDec .a16 (fold b) = .val i) (p : Nat)
    (rest : List (Byte × Nat)) : hexIndices ((b, p) :: rest) = (hexIndices rest).map (i :: ·) := by
  rw [hexIndices, h]
  cases hexIndices rest <;> rfl

theorem hexIndices_cons_of_invalid {b : Byte} (h : alphDec .a16 (fold b) = .invalid) (p : Nat)
    (rest : List (Byte × Nat)) : hexIndices ((b, p) :: rest) = .error p := by
  rw [hexIndices, h]

/-- Base16 has no pad symbol, so a byte that is not invalid is a hex digit. -/
theorem exists_alphDec_a16_eq_val {b : Byte} (h : alphDec .a16 b ≠ .invalid) : ∃ i, alphDec .a16 b = .val i := by
  cases hb : alphDec .a16 b with
  | val i => exact ⟨i, rfl⟩
  | pad => simp [alphDec_eq_pad_iff] at hb
  | invalid => exact absurd hb h

/-- The check passes exactly when every byte is a hex digit, and then it gives their values. -/
theorem hexIndices_eq_ok_iff (input : List Byte) (is : List Nat) (o : Nat) :
    hexIndices (input.zipIdx o) = .ok is ↔ (input.map fold).map (alphDec .a16) = is.map .val := by
  induction input generalizing is o with
  | nil => cases is <;> simp [hexIndices]
  | cons b input ih =>
    rw [List.zipIdx_cons, List.map_cons, List.map_cons]
    by_cases hb : alphDec .a16 (fold b) = .invalid
    · cases is <;> simp [hexIndices_cons_of_invalid, hb]
    · obtain ⟨i, hi⟩ := exists_alphDec_a16_eq_val hb
      rw [hexIndices_cons_of_val hi, hi]
      cases is with
      | nil => cases hexIndices (input.zipIdx (o + 1)) <;> simp [Except.map]
      | cons j is =>
        rw [List.map_cons, List.cons.injEq, Lookup.val.injEq, ← ih is (o + 1)]
        cases hexIndices (input.zipIdx (o + 1)) <;> simp [Except.map]

/-- The check reports the first byte that is no hex digit (R94). -/
theorem hexIndices_eq_error {input : List Byte} {p : Nat} {b : Byte} (hp : input[p]? = some b)
    (hb : alphDec .a16 (fold b) = .invalid)
    (hbefore : ∀ q c, q < p → input[q]? = some c → alphDec .a16 (fold c) ≠ .invalid) (o : Nat) :
    hexIndices (input.zipIdx o) = .error (o + p) := by
  induction input generalizing p o with
  | nil => simp at hp
  | cons c input ih =>
    rw [List.zipIdx_cons]
    cases p with
    | zero =>
      obtain rfl : c = b := by simpa using hp
      exact hexIndices_cons_of_invalid hb _ _
    | succ p =>
      obtain ⟨i, hi⟩ := exists_alphDec_a16_eq_val (hbefore 0 c (Nat.succ_pos p) rfl)
      rw [hexIndices_cons_of_val hi, ih (by simpa using hp) fun q d hq hd => hbefore (q + 1) d (by omega) (by simpa using hd)]
      exact congrArg Except.error (by omega)

/-! ### The units -/

/-- `B16ENC` writes the symbols of the nibbles (R90). -/
theorem b16Enc_eq (input : List Byte) : b16Enc input = .ok ((nibbles input).map (alphEnc .a16)) := by
  have hslice (b : Byte) : slice b.toNat 7 4 = b.toNat / 16 ∧ slice b.toNat 3 0 = b.toNat % 16 := by
    simp only [slice]
    omega
  simp [b16Enc, nibbles, List.map_flatMap, hslice]

theorem b16Dec_of_odd {input : List Byte} (h : input.length % 2 = 1) :
    b16Dec input = .err .malformedLength input.length := by simp [b16Dec, h]

theorem b16Dec_of_hexIndices_ok {input : List Byte} {is : List Nat} (heven : input.length % 2 = 0)
    (h : hexIndices input.zipIdx = .ok is) : b16Dec input = .ok (joinNibbles is) := by simp [b16Dec, heven, h]

theorem b16Dec_of_hexIndices_error {input : List Byte} {p : Nat} (heven : input.length % 2 = 0)
    (h : hexIndices input.zipIdx = .error p) : b16Dec input = .err .invalidSymbol p := by simp [b16Dec, heven, h]

/-- An input of even length whose folded bytes are the symbols of some indices is the join of these (R92). -/
theorem b16Dec_of_symbols {input : List Byte} {is : List Nat} (heven : input.length % 2 = 0)
    (h : (input.map fold).map (alphDec .a16) = is.map .val) : b16Dec input = .ok (joinNibbles is) :=
  b16Dec_of_hexIndices_ok heven ((hexIndices_eq_ok_iff input is 0).2 h)

/-- `B16DEC` accepts a text with some bytes exactly when the text is, but for its case, what `B16ENC` gives them (R96). -/
theorem b16Dec_eq_ok_iff (text bytes : List Byte) : b16Dec text = .ok bytes ↔ b16Enc bytes = .ok (text.map fold) := by
  rw [b16Enc_eq, Result.ok.injEq, eq_comm (b := text.map fold)]
  constructor
  · intro h
    rcases Nat.mod_two_eq_zero_or_one text.length with heven | hodd
    · cases his : hexIndices text.zipIdx with
      | error p => simp [b16Dec_of_hexIndices_error heven his] at h
      | ok is =>
        obtain rfl : joinNibbles is = bytes := by simpa [b16Dec_of_hexIndices_ok heven his] using h
        obtain ⟨hlt, hfold⟩ := (map_alphDec_eq_map_val_iff ..).1 ((hexIndices_eq_ok_iff ..).1 his)
        have hlength : is.length = text.length := by simpa using (congrArg List.length hfold).symm
        rw [nibbles_joinNibbles (by omega) hlt, hfold]
    · simp [b16Dec_of_odd hodd] at h
  · intro h
    have hsymbols := (map_alphDec_eq_map_val_iff .a16 _ _).2 ⟨fun i => lt_of_mem_nibbles, h⟩
    have hlength : text.length = 2 * bytes.length := by simpa using congrArg List.length h
    rw [b16Dec_of_symbols (by omega) hsymbols, joinNibbles_nibbles]

/-! ### Upper and lower case -/

/-- The lower case of a base16 symbol. -/
def hexLower (c : Byte) : Byte := if 0x41 ≤ c.toNat ∧ c.toNat ≤ 0x46 then c + 0x20 else c

/-- The fold leaves a symbol of the alphabet, and takes its lower case back to it (R76). -/
theorem fold_alphEnc_a16 : ∀ i < 16, fold (alphEnc .a16 i) = alphEnc .a16 i ∧
    fold (hexLower (alphEnc .a16 i)) = alphEnc .a16 i := by decide

/-- What `B16ENC` gives is upper case, and its lower case folds back to it. -/
theorem map_fold_of_b16Enc {bytes text : List Byte} (h : b16Enc bytes = .ok text) :
    text.map fold = text ∧ (text.map hexLower).map fold = text := by
  obtain rfl : (nibbles bytes).map (alphEnc .a16) = text := by simpa [b16Enc_eq] using h
  simp only [List.map_map, List.map_inj_left]
  exact forall₂_and.1 fun i hi => fold_alphEnc_a16 i (lt_of_mem_nibbles hi)

end Sys2Proof.Machine
end

section
/-! SETTLED. The statements of the family 41_base16.md. -/

namespace Sys2Proof.Machine

/-- Settles O32: the output is the symbols of the nibbles, and byte `k` stands at the nibbles `2k` and `2k+1`. -/
theorem b16EncWritesTwoSymbolsPerByte : Obligations.B16EncWritesTwoSymbolsPerByte := by
  refine ⟨rfl, fun s hlong => exec_ends_of_overlong hlong _, fun s input hloaded => ?_⟩
  obtain ⟨t, hexec, hends⟩ := hloaded.exec_ends .b16enc
  rw [unitResult, b16Enc_eq] at hends
  refine ⟨t, _, hexec, hends, by simp, fun k b hb => ?_⟩
  obtain ⟨hhigh, hlow⟩ := nibbles_getElem? hb
  have hshift : (b >>> 4).toNat = b.toNat / 16 := toNat_ushiftRight_eq_div b 4
  obtain ⟨-, -, -, hmask, -⟩ := toNat_and_mask b
  rw [List.getElem?_map, List.getElem?_map, hhigh, hlow, hshift, hmask, rom_getElem?_of_lt (show _ < 16 by omega),
    rom_getElem?_of_lt (show _ < 16 by omega)]
  exact ⟨rfl, rfl⟩

/-- Settles O33: the given indices are those of the symbol check, and byte `k` joins the indices `2k` and `2k+1`. -/
theorem b16DecJoinsNibbles : Obligations.B16DecJoinsNibbles := by
  intro s input indices hloaded heven hlength hsymbols
  obtain ⟨t, hexec, hends⟩ := hloaded.exec_ends .b16dec
  rw [SymbolsOf, List.take_of_length_le (by simp [hlength])] at hsymbols
  rw [unitResult, b16Dec_of_symbols heven hsymbols] at hends
  exact ⟨t, _, hexec, hends, by rw [joinNibbles_length, hlength], fun k hi lo => joinNibbles_getElem?⟩

/-- Settles O34: the length is checked first, and the symbol check of an even one can only end with code 1. -/
theorem b16DecChecksForAnEvenLength : Obligations.B16DecChecksForAnEvenLength := by
  intro s input hloaded
  obtain ⟨t, hexec, hends⟩ := hloaded.exec_ends .b16dec
  refine ⟨t, hexec, ?_, fun hzero => ?_⟩
  · split_ifs with hodd
    · rw [unitResult, b16Dec_of_odd hodd] at hends
      rw [hloaded.1]
      exact hends
    · have heven : input.length % 2 = 0 := by omega
      cases his : hexIndices input.zipIdx with
      | ok is =>
        rw [unitResult, b16Dec_of_hexIndices_ok heven his] at hends
        obtain ⟨-, -, hstatus, -⟩ := hends
        simp [hstatus]
      | error p =>
        rw [unitResult, b16Dec_of_hexIndices_error heven his] at hends
        obtain ⟨-, -, hstatus, -⟩ := hends
        simp [hstatus, errorCode]
  · obtain rfl := List.eq_nil_of_length_eq_zero hzero
    exact hends

/-- Settles O35: the symbol check stops at the first byte that is no hex digit. -/
theorem b16DecReportsTheFirstInvalidSymbol : Obligations.B16DecReportsTheFirstInvalidSymbol := by
  rintro s input p hloaded heven ⟨b, hb, hinvalid⟩ hbefore
  obtain ⟨t, hexec, hends⟩ := hloaded.exec_ends .b16dec
  have hcheck : hexIndices input.zipIdx = .error p := by simpa using hexIndices_eq_error hb hinvalid hbefore 0
  rw [unitResult, b16Dec_of_hexIndices_error heven hcheck] at hends
  exact ⟨t, hexec, hends⟩

/-- Settles O36: both texts fold to what `B16ENC` gave, which is all that `B16DEC` looks at. -/
theorem base16RoundTrip : Obligations.Base16RoundTrip := by
  intro s bytes text henc hloaded
  obtain ⟨hupper, hlower⟩ := map_fold_of_b16Enc henc
  obtain ⟨input, hinput, hfold⟩ : ∃ input, s.Loaded input ∧ input.map fold = text :=
    hloaded.elim (⟨_, ·, hupper⟩) (⟨_, ·, hlower⟩)
  obtain ⟨t, hexec, hends⟩ := hinput.exec_ends .b16dec
  rw [unitResult, (b16Dec_eq_ok_iff input bytes).2 (hfold ▸ henc)] at hends
  exact ⟨t, hexec, hends⟩

/-- Settles O37: it is one direction of `b16Dec_eq_ok_iff`. -/
theorem base16DecodeLosesOnlyCase : Obligations.Base16DecodeLosesOnlyCase := fun text bytes =>
  (b16Dec_eq_ok_iff text bytes).1

end Sys2Proof.Machine
end

section
/-! SUPPORT. Bit strings (20_memory.md R34): joins of fields, the fields of a join, and the bytes of a sequence of indices
(40_alphabet_padding.md R82). -/

namespace Sys2Proof.Machine

theorem concatBits_append_singleton (w : Nat) (xs : List Nat) (x : Nat) :
    concatBits w (xs ++ [x]) = 2 ^ w * concatBits w xs + x := by
  simp [concatBits, Nat.mul_comm]

/-- A bit string is the number whose digits, the least significant first, are the fields in reverse. -/
theorem concatBits_eq_ofDigits (w : Nat) (xs : List Nat) : concatBits w xs = Nat.ofDigits (2 ^ w) xs.reverse := by
  induction xs using List.reverseRecOn with
  | nil => rfl
  | append_singleton xs x ih =>
    rw [concatBits_append_singleton, ih, List.reverse_append, List.reverse_singleton, List.singleton_append,
      Nat.ofDigits_cons, Nat.add_comm]

theorem concatBits_append (w : Nat) (xs ys : List Nat) :
    concatBits w (xs ++ ys) = 2 ^ (w * ys.length) * concatBits w xs + concatBits w ys := by
  simp only [concatBits_eq_ofDigits, List.reverse_append, Nat.ofDigits_append, List.length_reverse, ← Nat.pow_mul]
  exact Nat.add_comm _ _

theorem concatBits_lt {w : Nat} (hw : 0 < w) {xs : List Nat} (h : ∀ x ∈ xs, x < 2 ^ w) :
    concatBits w xs < 2 ^ (w * xs.length) := by
  rw [concatBits_eq_ofDigits, Nat.pow_mul, ← List.length_reverse]
  exact Nat.ofDigits_lt_base_pow_length (Nat.one_lt_two_pow hw.ne') (by simpa using h)

/-- Field `k` of a bit string is the `k`-th of the joined values. -/
theorem concatBits_field {w : Nat} (hw : 0 < w) {xs : List Nat} (h : ∀ x ∈ xs, x < 2 ^ w) {k x : Nat}
    (hk : xs[k]? = some x) : concatBits w xs / 2 ^ (w * (xs.length - (k + 1))) % 2 ^ w = x := by
  obtain ⟨hlt, hx⟩ := List.getElem?_eq_some_iff.1 hk
  have hsplit : xs = (xs.take k ++ [x]) ++ xs.drop (k + 1) := by simp [← hx]
  have hlow : concatBits w (xs.drop (k + 1)) < 2 ^ (w * (xs.length - (k + 1))) := by
    simpa using concatBits_lt hw fun y hy => h y (List.mem_of_mem_drop hy)
  have hx : x < 2 ^ w := h x (List.mem_of_getElem? hk)
  rw [hsplit, concatBits_append, ← hsplit, List.length_drop, Nat.mul_add_div (by positivity), Nat.div_eq_of_lt hlow,
    Nat.add_zero, concatBits_append_singleton, Nat.mul_add_mod, Nat.mod_eq_of_lt hx]

/-- The first `n` fields of a number of `t` bits are its bits above the rest. -/
theorem concatBits_fields {v t w n : Nat} (hv : v < 2 ^ t) (hn : w * n ≤ t) :
    concatBits w ((List.range n).map fun j => v / 2 ^ (t - w * (j + 1)) % 2 ^ w) = v / 2 ^ (t - w * n) := by
  induction n with
  | zero => simp [concatBits, Nat.div_eq_of_lt hv]
  | succ n ih =>
    rw [Nat.mul_succ] at hn
    have hpow : 2 ^ (t - w * n) = 2 ^ (t - w * (n + 1)) * 2 ^ w := by rw [← Nat.pow_add, Nat.mul_succ]; congr 1; omega
    rw [List.range_succ, List.map_append, List.map_singleton, concatBits_append_singleton, ih (by omega), hpow,
      ← Nat.div_div_eq_div_mul]
    exact Nat.div_add_mod _ _

/-! ### The bytes of a sequence of indices -/

@[simp] theorem windowBytes_nil (c : Codec) : windowBytes c [] = [] := by simp [windowBytes, bytesFrom]

/-- R82: byte `k` is the bits `8k .. 8k+7` of the bit string of the indices. -/
theorem windowBytes_eq (c : Codec) (is : List Nat) : windowBytes c is = (List.range (bytesFrom c is.length)).map fun k =>
    BitVec.ofNat 8 (concatBits (symBits c) is / 2 ^ (symBits c * is.length - 8 * (k + 1))) := by
  refine List.map_congr_left fun k hk => BitVec.eq_of_toNat_eq ?_
  have hk : k < symBits c * is.length / 8 := by rw [Nat.mul_comm]; exact List.mem_range.1 hk
  have hwidth : symBits c * is.length - 1 - 8 * k + 1 - (symBits c * is.length - 8 * (k + 1)) = 8 := by omega
  simp only [slice, hwidth, BitVec.toNat_ofNat, Nat.mod_mod]

/-- Indices that fill whole bytes give these, and what follows gives its own. -/
theorem windowBytes_append {c : Codec} {front rest : List Nat} (hfront : 8 ∣ symBits c * front.length)
    (hrest : ∀ i ∈ rest, i < 2 ^ symBits c) :
    windowBytes c (front ++ rest) = windowBytes c front ++ windowBytes c rest := by
  obtain ⟨m, hm⟩ := hfront
  have hfront : bytesFrom c front.length = m := by rw [bytesFrom, Nat.mul_comm, hm]; omega
  have hbytes : bytesFrom c (front ++ rest).length = m + bytesFrom c rest.length := by
    rw [bytesFrom, Nat.mul_comm, List.length_append, Nat.mul_add, hm, bytesFrom, Nat.mul_comm rest.length]; omega
  have hwidth : symBits c * (front ++ rest).length = 8 * m + symBits c * rest.length := by
    rw [List.length_append, Nat.mul_add, hm]
  have hlow := concatBits_lt (symBits_pos c) hrest
  simp only [windowBytes_eq, hbytes, hfront, hwidth, hm, List.range_add, List.map_append, List.map_map, concatBits_append]
  congr 1
  · refine List.map_congr_left fun k hk => ?_
    have hk : k < m := List.mem_range.1 hk
    rw [show 8 * m + symBits c * rest.length - 8 * (k + 1) = symBits c * rest.length + (8 * m - 8 * (k + 1)) by omega,
      Nat.pow_add, ← Nat.div_div_eq_div_mul, Nat.mul_add_div (by positivity), Nat.div_eq_of_lt hlow, Nat.add_zero]
  · refine List.map_congr_left fun k hk => BitVec.eq_of_toNat_eq ?_
    have hk : k < symBits c * rest.length / 8 := by rw [Nat.mul_comm]; exact List.mem_range.1 hk
    obtain ⟨e, he⟩ : ∃ e, symBits c * rest.length = e + 8 * (k + 1) := Nat.exists_eq_add_of_le' (by omega)
    simp only [Function.comp, he, BitVec.toNat_ofNat]
    rw [show 8 * m + (e + 8 * (k + 1)) - 8 * (m + k + 1) = e by omega, Nat.add_sub_cancel,
      show e + 8 * (k + 1) = e + 8 * k + 8 by omega, Nat.pow_add, Nat.pow_add, Nat.mul_assoc, Nat.mul_assoc,
      Nat.mul_add_div (by positivity), Nat.mul_left_comm, Nat.mul_add_mod]

end Sys2Proof.Machine
end

section
/-! SUPPORT. The encoders' walk over groups (42_base32.md R100, 43_base64.md R120): the indices of an encoding, its symbols, and
the bytes that the indices determine. -/

namespace Sys2Proof.Machine

/-! ### Groups -/

/-- A sequence is shorter than a group, or a whole group and a sequence. -/
theorem groups_induction {α : Type} {size : Nat} (hsize : 0 < size) {P : List α → Prop}
    (short : ∀ xs, xs.length < size → P xs)
    (whole : ∀ front rest, front.length = size → P rest → P (front ++ rest)) (xs : List α) : P xs := by
  induction hn : xs.length using Nat.strong_induction_on generalizing xs with
  | _ n ih =>
    rcases Nat.lt_or_ge xs.length size with hlt | hge
    · exact short xs hlt
    · rw [← List.take_append_drop size xs]
      exact whole _ _ (by simpa using hge) (ih _ (by rw [List.length_drop]; omega) _ rfl)

/-- The first group is the first `size` elements, or all where there are fewer. -/
theorem groupsOf_of_ne_nil {α : Type} {size : Nat} (hsize : 0 < size) {xs : List α} (h : xs ≠ []) :
    groupsOf size xs = xs.take size :: groupsOf size (xs.drop size) := by
  rcases Nat.lt_or_ge xs.length size with hlt | hge
  · rw [groupsOf_short xs (List.length_pos_iff.2 h) hlt.le, List.take_of_length_le hlt.le, List.drop_of_length_le hlt.le,
      groupsOf_nil hsize]
  · rw [← groupsOf_append hsize _ _ (List.length_take_of_le hge), List.take_append_drop]

/-- Group `g` is the `size` elements from `size * g` on, as far as there are any. -/
theorem groupsOf_getElem? {α : Type} {size g : Nat} (hsize : 0 < size) {xs : List α} (hg : size * g < xs.length) :
    (groupsOf size xs)[g]? = some ((xs.drop (size * g)).take size) := by
  have hlt : g < ceilDiv xs.length size := (lt_ceilDiv_iff hsize g).2 (by rwa [Nat.mul_comm])
  simp [groupsOf, hlt]

/-- Where every item of a walk gives `n` elements, position `n * g + j` is position `j` of item `g`. -/
theorem getElem?_flatMap_of_length_eq {α β : Type} {f : α → List β} {n : Nat} {xs : List α}
    (h : ∀ x ∈ xs, (f x).length = n) {g j : Nat} (hj : j < n) {x : α} (hx : xs[g]? = some x) : (xs.flatMap f)[n * g + j]? = (f x)[j]? := by
  induction xs generalizing g with
  | nil => simp at hx
  | cons y xs ih =>
    obtain ⟨hy, hxs⟩ := List.forall_mem_cons.1 h
    rw [List.flatMap_cons]
    cases g with
    | zero =>
      obtain rfl : y = x := by simpa using hx
      rw [Nat.mul_zero, Nat.zero_add, List.getElem?_append_left (by omega)]
    | succ g =>
      rw [List.getElem?_append_right (by rw [hy, Nat.mul_succ]; omega), ← ih hxs (by simpa using hx), hy]
      congr 1
      rw [Nat.mul_succ]; omega

theorem length_flatMap_of_length_eq {α β : Type} {f : α → List β} {n : Nat} {xs : List α}
    (h : ∀ x ∈ xs, (f x).length = n) : (xs.flatMap f).length = n * xs.length := by
  rw [List.length_flatMap, List.map_congr_left h]
  simp [Nat.mul_comm]

/-! ### The indices of a group -/

theorem rawCount_pos (c : Codec) : 0 < rawCount c := by cases c <;> decide

theorem dataSyms_rawCount (c : Codec) : dataSyms c (rawCount c) = symCount c := by cases c <;> rfl

theorem dataSyms_le_symCount {c : Codec} {r : Nat} (h : r ≤ rawCount c) : dataSyms c r ≤ symCount c := by
  cases c <;> simp only [rawCount, dataSyms, ceilDiv, symBits, symCount] at * <;> omega

/-- The data symbols of `r` bytes determine `r` bytes (R80, R82). -/
theorem bytesFrom_dataSyms {c : Codec} {r : Nat} (h : r ≤ rawCount c) : bytesFrom c (dataSyms c r) = r := by
  cases c <;> simp only [rawCount, bytesFrom, dataSyms, ceilDiv, symBits] at * <;> omega

/-- `Bits * Syms = 8 * Raw` (R79). -/
theorem symBits_mul_symCount (c : Codec) : symBits c * symCount c = 8 * rawCount c := by cases c <;> rfl

/-- The symbols of a whole group fill whole bytes. -/
theorem eight_dvd_symBits_mul {c : Codec} {n : Nat} (h : n = symCount c) : 8 ∣ symBits c * n := by
  rw [h, symBits_mul_symCount]
  exact Nat.dvd_mul_right ..

/-- An index depends on the bytes of its group and on the NUL fill, not on where the one ends (20_memory.md R37). -/
theorem symbolIndex_congr {c : Codec} {group group' : List Byte}
    (h : ∀ k < rawCount c, group.getD k 0 = group'.getD k 0) (j : Nat) : symbolIndex c group j = symbolIndex c group' j := by
  have hstring : groupString c group = groupString c group' :=
    congrArg (concatBits 8) (List.map_congr_left fun k hk => congrArg BitVec.toNat (h k (List.mem_range.1 hk)))
  rw [symbolIndex, hstring, symbolIndex]

/-- The indices of the data symbols of a group, in order (R81). -/
def groupIndices (c : Codec) (group : List Byte) : List Nat :=
  (List.range (dataSyms c group.length)).map (symbolIndex c group)

@[simp] theorem groupIndices_length (c : Codec) (group : List Byte) :
    (groupIndices c group).length = dataSyms c group.length := by simp [groupIndices]

theorem groupIndices_eq {c : Codec} {group : List Byte} (h : group.length ≤ rawCount c) :
    groupIndices c group = (List.range (dataSyms c group.length)).map fun j =>
      groupString c group / 2 ^ (8 * rawCount c - symBits c * (j + 1)) % 2 ^ symBits c :=
  List.map_congr_left fun _ hj => symbolIndex_eq _ ((List.mem_range.1 hj).trans_le (dataSyms_le_symCount h))

theorem lt_of_mem_groupIndices {c : Codec} {group : List Byte} (h : group.length ≤ rawCount c) {i : Nat}
    (hi : i ∈ groupIndices c group) : i < 2 ^ symBits c := by
  rw [groupIndices_eq h, List.mem_map] at hi
  obtain ⟨j, -, rfl⟩ := hi
  exact Nat.mod_lt _ (by positivity)

/-- The values of a group's bytes and of the NUL fill behind them (20_memory.md R37). -/
def groupValues (c : Codec) (group : List Byte) : List Nat := (List.range (rawCount c)).map fun k => (group.getD k 0).toNat

@[simp] theorem groupValues_length (c : Codec) (group : List Byte) : (groupValues c group).length = rawCount c := by
  simp [groupValues]

theorem groupString_eq (c : Codec) (group : List Byte) : groupString c group = concatBits 8 (groupValues c group) := rfl

theorem lt_of_mem_groupValues {c : Codec} {group : List Byte} {x : Nat} (h : x ∈ groupValues c group) : x < 2 ^ 8 := by
  obtain ⟨k, -, rfl⟩ := List.mem_map.1 h
  exact BitVec.isLt _

theorem groupString_lt (c : Codec) (group : List Byte) : groupString c group < 2 ^ (8 * rawCount c) := by
  rw [groupString_eq, ← groupValues_length c group]
  exact concatBits_lt (by decide) fun _ => lt_of_mem_groupValues

/-- Byte `k` of a group is byte `k` of its string (20_memory.md R34). -/
theorem groupString_byte {c : Codec} (group : List Byte) {k : Nat} (hk : k < rawCount c) :
    BitVec.ofNat 8 (groupString c group / 2 ^ (8 * rawCount c - 8 * (k + 1))) = group.getD k 0 := by
  have hvalue : (groupValues c group)[k]? = some (group.getD k 0).toNat := by simp [groupValues, hk]
  have hfield := concatBits_field (by decide) (fun _ => lt_of_mem_groupValues) hvalue
  rw [groupValues_length, ← groupString_eq, Nat.mul_sub] at hfield
  rw [← BitVec.toNat_inj, BitVec.toNat_ofNat, hfield]

/-- The data symbols of a group give its bytes back: they are the bits of the group string above the pad positions. -/
theorem windowBytes_groupIndices {c : Codec} {group : List Byte} (h : group.length ≤ rawCount c) :
    windowBytes c (groupIndices c group) = group := by
  have hfit : symBits c * dataSyms c group.length ≤ 8 * rawCount c :=
    (Nat.mul_le_mul_left _ (dataSyms_le_symCount h)).trans (symBits_mul_symCount c).le
  rw [windowBytes_eq, groupIndices_length, bytesFrom_dataSyms h]
  refine List.ext_getElem (by simp) fun k hk _ => ?_
  have hk : k < group.length := by simpa using hk
  have hwidth : 8 * (k + 1) ≤ symBits c * dataSyms c group.length := by
    have := bytesFrom_dataSyms h
    rw [bytesFrom, Nat.mul_comm] at this
    omega
  have hplace : 8 * rawCount c - symBits c * dataSyms c group.length +
      (symBits c * dataSyms c group.length - 8 * (k + 1)) = 8 * rawCount c - 8 * (k + 1) := by omega
  rw [List.getElem_map, List.getElem_range, groupIndices_eq h, concatBits_fields (groupString_lt c group) hfit,
    Nat.div_div_eq_div_mul, ← Nat.pow_add, hplace, groupString_byte group (by omega)]
  simp [hk]

/-! ### The symbols of a group -/

/-- A padded group has a symbol at every position. -/
theorem encodeGroup_padded (c : Codec) (sel : Alphabet) (group : List Byte) : encodeGroup c sel false group =
    (List.range (symCount c)).map fun j =>
      if isData c j group.length then alphEnc sel (symbolIndex c group j) else padSymbol := by
  rw [encodeGroup, List.map_eq_flatMap]
  congr 1
  funext j
  cases isData c j group.length <;> rfl

@[simp] theorem encodeGroup_padded_length (c : Codec) (sel : Alphabet) (group : List Byte) :
    (encodeGroup c sel false group).length = symCount c := by simp [encodeGroup_padded]

/-- R102: the data symbols come first, then the pad symbols, if any. -/
theorem encodeGroup_eq {c : Codec} (sel : Alphabet) (noPadding : Bool) {group : List Byte}
    (h : group.length ≤ rawCount c) : encodeGroup c sel noPadding group =
      (groupIndices c group).map (alphEnc sel) ++
        if noPadding then [] else List.replicate (padCount c group.length) padSymbol := by
  have hsplit : symCount c = dataSyms c group.length + padCount c group.length :=
    (Nat.add_sub_cancel' (dataSyms_le_symCount h)).symm
  rw [encodeGroup, hsplit, List.range_add, List.flatMap_append, groupIndices, List.map_map]
  congr 1
  · rw [List.map_eq_flatMap]
    refine List.flatMap_congr fun j hj => ?_
    rw [if_pos ((isData_iff ..).2 (List.mem_range.1 hj))]
    rfl
  · have hpad (j : Nat) : ¬ isData c (dataSyms c group.length + j) group.length = true := by rw [isData_iff]; omega
    simp only [List.flatMap_map, hpad, Bool.false_eq_true, if_false]
    cases noPadding with
    | false => simp [← List.map_eq_flatMap, List.map_const']
    | true => simp

/-! ### Whole encodings -/

/-- The indices of the data symbols of an encoding, in order. -/
def dataIndices (c : Codec) (bytes : List Byte) : List Nat := (groupsOf (rawCount c) bytes).flatMap (groupIndices c)

theorem lt_of_mem_dataIndices {c : Codec} {bytes : List Byte} {i : Nat} (hi : i ∈ dataIndices c bytes) :
    i < 2 ^ symBits c := by
  obtain ⟨group, hgroup, hi⟩ := List.mem_flatMap.1 hi
  exact lt_of_mem_groupIndices (length_le_of_mem_groupsOf hgroup) hi

/-- A last group that is not whole, or an empty sequence, which has no group. -/
theorem dataIndices_of_short {c : Codec} {bytes : List Byte} (h : bytes.length ≤ rawCount c) :
    dataIndices c bytes = groupIndices c bytes := by
  rcases Nat.eq_zero_or_pos bytes.length with hzero | hpos
  · obtain rfl := List.eq_nil_of_length_eq_zero hzero
    cases c <;> rfl
  · simp [dataIndices, groupsOf_short bytes hpos h]

theorem dataIndices_append {c : Codec} {front : List Byte} (h : front.length = rawCount c) (rest : List Byte) :
    dataIndices c (front ++ rest) = groupIndices c front ++ dataIndices c rest := by
  rw [dataIndices, groupsOf_append (rawCount_pos c) _ _ h, List.flatMap_cons, dataIndices]

/-- The indices of an encoding determine exactly the bytes that were encoded. -/
theorem windowBytes_dataIndices (c : Codec) (bytes : List Byte) : windowBytes c (dataIndices c bytes) = bytes := by
  induction bytes using groups_induction (rawCount_pos c) with
  | short bytes h => rw [dataIndices_of_short h.le, windowBytes_groupIndices h.le]
  | whole front rest h ih =>
    have hwhole : (groupIndices c front).length = symCount c := by rw [groupIndices_length, h, dataSyms_rawCount]
    rw [dataIndices_append h, windowBytes_append (eight_dvd_symBits_mul hwhole) fun _ => lt_of_mem_dataIndices,
      windowBytes_groupIndices h.le, ih]

/-- An encoding is the symbols of its indices, then the pad symbols of its last group, if any. -/
theorem exists_encodeGroups_eq (c : Codec) (sel : Alphabet) (noPadding : Bool) (bytes : List Byte) :
    ∃ n, (groupsOf (rawCount c) bytes).flatMap (encodeGroup c sel noPadding) =
      (dataIndices c bytes).map (alphEnc sel) ++ List.replicate n padSymbol := by
  have hgroup {group : List Byte} (h : group.length ≤ rawCount c) : ∃ n, encodeGroup c sel noPadding group =
      (groupIndices c group).map (alphEnc sel) ++ List.replicate n padSymbol := by
    rw [encodeGroup_eq sel noPadding h]
    cases noPadding with
    | false => exact ⟨_, rfl⟩
    | true => exact ⟨0, rfl⟩
  induction bytes using groups_induction (rawCount_pos c) with
  | short bytes h =>
    rcases Nat.eq_zero_or_pos bytes.length with hzero | hpos
    · obtain rfl := List.eq_nil_of_length_eq_zero hzero
      exact ⟨0, by simp [dataIndices, groupsOf_nil (rawCount_pos c)]⟩
    · rw [dataIndices_of_short h.le, groupsOf_short bytes hpos h.le, List.flatMap_singleton]
      exact hgroup h.le
  | whole front rest h ih =>
    obtain ⟨n, hn⟩ := ih
    have hfront : encodeGroup c sel noPadding front = (groupIndices c front).map (alphEnc sel) := by
      rw [encodeGroup_eq sel noPadding h.le, h, padCount, dataSyms_rawCount, Nat.sub_self]
      simp
    exact ⟨n, by rw [groupsOf_append (rawCount_pos c) _ _ h, List.flatMap_cons, hn, hfront, dataIndices_append h,
      List.map_append, List.append_assoc]⟩

end Sys2Proof.Machine
end

section
/-! SUPPORT. The decoders' walk over windows (42_base32.md R104 to R107, 43_base64.md R125 to R128): the bytes of the symbols
before the first other byte, and what that byte makes of the result. -/

namespace Sys2Proof.Machine

/-! ### One window -/

/-- The scan passes over symbols of the alphabet. -/
theorem scanWindow_append {sel : Alphabet} {front : List (Byte × Nat)} {is : List Nat}
    (h : front.map (alphDec sel ∘ Prod.fst) = is.map .val) (rest : List (Byte × Nat)) :
    scanWindow sel (front ++ rest) = (scanWindow sel rest).map (is ++ ·) := by
  induction front generalizing is with
  | nil =>
    obtain rfl : is = [] := by simpa using h
    cases hrest : scanWindow sel rest <;> simp [Except.map, hrest]
  | cons x front ih =>
    cases is with
    | nil => simp at h
    | cons i is =>
      obtain ⟨hx, hfront⟩ := List.cons.inj h
      rw [List.cons_append, scanWindow_val hx, ih hfront]
      cases scanWindow sel rest <;> rfl

/-- No symbol of the alphabet stands at the front of `rest`. -/
abbrev NoSymbolFirst (sel : Alphabet) (rest : List (Byte × Nat)) : Prop :=
  ∀ x ∈ rest.head?, ∀ i, alphDec sel x.1 ≠ .val i

/-- A byte that is no symbol ends the scan, whatever follows it. -/
theorem scanWindow_take_of_noSymbolFirst {sel : Alphabet} {rest : List (Byte × Nat)} (h : NoSymbolFirst sel rest) {m : Nat}
    (hm : 0 < m) : scanWindow sel (rest.take m) = scanWindow sel rest := by
  obtain ⟨m, rfl⟩ := Nat.exists_eq_succ_of_ne_zero hm.ne'
  cases rest with
  | nil => rfl
  | cons x rest =>
    obtain ⟨b, p⟩ := x
    cases hb : alphDec sel b with
    | val i => exact absurd hb (h _ rfl i)
    | pad => rw [List.take_succ_cons, scanWindow_pad hb, scanWindow_pad hb]
    | invalid => rw [List.take_succ_cons, scanWindow_invalid hb, scanWindow_invalid hb]

theorem scanWindow_eq_nil_of_noSymbolFirst {sel : Alphabet} {rest : List (Byte × Nat)} (h : NoSymbolFirst sel rest)
    {is : List Nat} (his : scanWindow sel rest = .ok is) : is = [] := by
  cases rest with
  | nil => simpa [scanWindow] using his.symm
  | cons x rest =>
    obtain ⟨b, p⟩ := x
    cases hb : alphDec sel b with
    | val i => exact absurd hb (h _ rfl i)
    | pad => simpa [scanWindow_pad hb] using his.symm
    | invalid => simp [scanWindow_invalid hb] at his

/-! ### All windows -/

theorem decodeWindows_cons_of_error {c : Codec} {sel : Alphabet} {w : List (Byte × Nat)} {p : Nat}
    (h : scanWindow sel w = .error p) (ws : List (List (Byte × Nat))) : decodeWindows c sel (w :: ws) = .error p := by
  rw [decodeWindows, h]

/-- R107, R128: an incomplete window ends the operation. -/
theorem decodeWindows_cons_of_incomplete {c : Codec} {sel : Alphabet} {w : List (Byte × Nat)} {is : List Nat}
    (h : scanWindow sel w = .ok is) (hlt : is.length < symCount c) (ws : List (List (Byte × Nat))) :
    decodeWindows c sel (w :: ws) = .ok (windowBytes c is) := by
  rw [decodeWindows, h]
  exact if_pos hlt

theorem decodeWindows_cons_of_complete {c : Codec} {sel : Alphabet} {w : List (Byte × Nat)} {is : List Nat}
    (h : scanWindow sel w = .ok is) (hfull : is.length = symCount c) (ws : List (List (Byte × Nat))) :
    decodeWindows c sel (w :: ws) = (decodeWindows c sel ws).map (windowBytes c is ++ ·) := by
  rw [decodeWindows, h]
  simp only [hfull, Nat.lt_irrefl, if_false]
  cases decodeWindows c sel ws <;> rfl

theorem symCount_pos (c : Codec) : 0 < symCount c := by cases c <;> decide

/-- Fewer symbols than a window has, and then another byte or the end: the first window is the last one that is read. -/
theorem decodeWindows_incomplete_append {c : Codec} {sel : Alphabet} {front rest : List (Byte × Nat)} {is : List Nat}
    (hfront : front.map (alphDec sel ∘ Prod.fst) = is.map .val) (hrest : NoSymbolFirst sel rest)
    (hshort : is.length < symCount c) :
    decodeWindows c sel (groupsOf (symCount c) (front ++ rest)) = (scanWindow sel rest).map fun _ => windowBytes c is := by
  have hlength : front.length = is.length := by simpa using congrArg List.length hfront
  by_cases hnil : front ++ rest = []
  · obtain ⟨rfl, rfl⟩ := List.append_eq_nil_iff.1 hnil
    obtain rfl : is = [] := by simpa using hfront
    rw [hnil, groupsOf_nil (symCount_pos c), windowBytes_nil]
    rfl
  · have hscan : scanWindow sel ((front ++ rest).take (symCount c)) = (scanWindow sel rest).map (is ++ ·) := by
      rw [List.take_append, List.take_of_length_le (by omega), scanWindow_append hfront,
        scanWindow_take_of_noSymbolFirst hrest (by omega)]
    rw [groupsOf_of_ne_nil (symCount_pos c) hnil]
    cases hr : scanWindow sel rest with
    | error p =>
      rw [hr] at hscan
      exact decodeWindows_cons_of_error hscan _
    | ok js =>
      obtain rfl := scanWindow_eq_nil_of_noSymbolFirst hrest hr
      rw [hr, Except.map, List.append_nil] at hscan
      exact decodeWindows_cons_of_incomplete hscan hshort _

/-- The symbols before the first other byte determine the bytes; that byte, or the end, decides whether they are delivered. -/
theorem decodeWindows_symbols_append {c : Codec} {sel : Alphabet} (hsize : alphabetSize sel = 2 ^ symBits c)
    {front rest : List (Byte × Nat)} {is : List Nat} (hfront : front.map (alphDec sel ∘ Prod.fst) = is.map .val)
    (hrest : NoSymbolFirst sel rest) :
    decodeWindows c sel (groupsOf (symCount c) (front ++ rest)) = (scanWindow sel rest).map fun _ => windowBytes c is := by
  induction is using groups_induction (symCount_pos c) generalizing front with
  | short is hshort => exact decodeWindows_incomplete_append hfront hrest hshort
  | whole is js hfull ih =>
    obtain ⟨window, front, rfl, hwindow, hfront⟩ := List.map_eq_append_iff.1 (hfront.trans List.map_append)
    have hlength : window.length = symCount c := by simpa [hfull] using congrArg List.length hwindow
    have hscan : scanWindow sel window = .ok is := by simpa [scanWindow, Except.map] using scanWindow_append hwindow []
    have hlt : ∀ j ∈ js, j < 2 ^ symBits c := by
      rw [← List.map_map, map_alphDec_eq_map_val_iff, hsize] at hfront
      exact hfront.1
    rw [List.append_assoc, groupsOf_append (symCount_pos c) _ _ hlength, decodeWindows_cons_of_complete hscan hfull,
      ih hfront, windowBytes_append (eight_dvd_symBits_mul hfull) hlt]
    cases scanWindow sel rest <;> rfl

/-! ### A text -/

section Symbols

variable {c : Codec} {sel : Alphabet} {text : List (Byte × Nat)} {is : List Nat}

/-- A text whose first bytes are symbols, and the next is none. -/
theorem decodeWindows_of_symbols (hsize : alphabetSize sel = 2 ^ symBits c)
    (his : SymbolsOf sel (text.map Prod.fst) is) (hnext : ∀ x ∈ text[is.length]?, ∀ i, alphDec sel x.1 ≠ .val i) :
    decodeWindows c sel (groupsOf (symCount c) text) =
      (scanWindow sel (text.drop is.length)).map fun _ => windowBytes c is := by
  rw [SymbolsOf, ← List.map_take, List.map_map] at his
  rw [← List.head?_drop] at hnext
  rw [← decodeWindows_symbols_append hsize his hnext, List.take_append_drop]

/-- Symbols up to a pad symbol or to the end of the text give the bytes they determine (R107, R128). -/
theorem decodeText_of_symbols (hsize : alphabetSize sel = 2 ^ symBits c) (his : SymbolsOf sel (text.map Prod.fst) is)
    (hpad : ∀ x ∈ text[is.length]?, alphDec sel x.1 = .pad) : decodeText c sel text = .ok (windowBytes c is) := by
  have hscan : scanWindow sel (text.drop is.length) = .ok [] := by
    rw [← List.head?_drop] at hpad
    cases hdrop : text.drop is.length with
    | nil => rfl
    | cons x rest => exact scanWindow_pad (hpad x (by simp [hdrop])) _ _
  rw [decodeText, decodeWindows_of_symbols hsize his fun x hx i => by simp [hpad x hx], hscan]
  rfl

/-- Symbols up to an invalid byte give its position (R106, R128). -/
theorem decodeText_of_invalid (hsize : alphabetSize sel = 2 ^ symBits c) (his : SymbolsOf sel (text.map Prod.fst) is)
    {b : Byte} {p : Nat} (hnext : text[is.length]? = some (b, p)) (hb : alphDec sel b = .invalid) :
    decodeText c sel text = .err .invalidSymbol p := by
  have hscan : scanWindow sel (text.drop is.length) = .error p := by
    obtain ⟨rest, hrest⟩ := List.head?_eq_some_iff.1 (List.head?_drop.trans hnext)
    rw [hrest]
    exact scanWindow_invalid hb _ _
  have hno : ∀ x ∈ text[is.length]?, ∀ i, alphDec sel x.1 ≠ .val i := by simp [hnext, hb]
  rw [decodeText, decodeWindows_of_symbols hsize his hno, hscan]
  rfl

end Symbols

/-- The walk over windows has no other error than `InvalidSymbol`. -/
theorem decodeText_eq_ok_or_invalidSymbol (c : Codec) (sel : Alphabet) (text : List (Byte × Nat)) :
    (∃ out, decodeText c sel text = .ok out) ∨ ∃ p, decodeText c sel text = .err .invalidSymbol p := by
  unfold decodeText
  split
  · exact .inl ⟨_, rfl⟩
  · exact .inr ⟨_, rfl⟩

/-- An encoding decodes to the bytes that were encoded, in the alphabet it was written in, padded or not. -/
theorem decodeText_encodeGroups {c : Codec} {sel : Alphabet} (hsize : alphabetSize sel = 2 ^ symBits c)
    (hpad : alphDec sel padSymbol = .pad) (noPadding : Bool) {bytes : List Byte} {text : List (Byte × Nat)}
    (htext : text.map Prod.fst = (groupsOf (rawCount c) bytes).flatMap (encodeGroup c sel noPadding)) :
    decodeText c sel text = .ok bytes := by
  obtain ⟨n, hn⟩ := exists_encodeGroups_eq c sel noPadding bytes
  rw [hn] at htext
  have his : SymbolsOf sel (text.map Prod.fst) (dataIndices c bytes) := by
    rw [SymbolsOf, htext, List.take_left' (by simp), map_alphDec_eq_map_val_iff, hsize]
    exact ⟨fun _ => lt_of_mem_dataIndices, rfl⟩
  rw [decodeText_of_symbols hsize his, windowBytes_dataIndices]
  intro x hx
  have hx : x.1 ∈ (text.map Prod.fst)[(dataIndices c bytes).length]? := by
    rw [List.getElem?_map, hx]; rfl
  rw [htext, List.getElem?_append_right (by simp)] at hx
  rwa [(List.mem_replicate.1 (List.mem_of_getElem? hx)).2]

end Sys2Proof.Machine
end

section
/-! SUPPORT. The base32 units (42_base32.md) in terms of the walks over groups and windows. -/

namespace Sys2Proof.Machine

/-- R100: every group gives eight symbols. -/
theorem b32Enc_length {input text : List Byte} (h : b32Enc input = .ok text) :
    text.length = 8 * ceilDiv input.length 5 := by
  obtain rfl := Result.ok.inj h
  rw [length_flatMap_of_length_eq fun group _ => encodeGroup_padded_length .base32 .a32 group, groupsOf_length]
  rfl

/-- R100, R102: position `j` of group `g` is the symbol of its index, or the pad symbol. -/
theorem b32Enc_getElem? {input text : List Byte} (h : b32Enc input = .ok text) {g j : Nat} (hg : 5 * g < input.length)
    (hj : j < 8) : text[8 * g + j]? = some (if isData .base32 j (min 5 (input.length - 5 * g)) then
      alphEnc .a32 (symbolIndex .base32 ((input.drop (5 * g)).take 5) j) else padSymbol) := by
  obtain rfl := Result.ok.inj h
  refine (getElem?_flatMap_of_length_eq (fun group _ => encodeGroup_padded_length .base32 .a32 group) hj
    (groupsOf_getElem? (rawCount_pos .base32) hg)).trans ?_
  simp [encodeGroup_padded, symCount, rawCount, hj]

/-- R59 for a group inside an input, which the NUL fill completes. -/
theorem symbolIndex_base32_drop_take (input : List Byte) (o : Nat) {j : Nat} (hj : j < 8) :
    symbolIndex .base32 ((input.drop o).take 5) j =
      ((input.getD (o + 0) 0).toNat * 2 ^ 32 + (input.getD (o + 1) 0).toNat * 2 ^ 24 +
        (input.getD (o + 2) 0).toNat * 2 ^ 16 + (input.getD (o + 3) 0).toNat * 2 ^ 8 +
        (input.getD (o + 4) 0).toNat) / 2 ^ (35 - 5 * j) % 32 := by
  rw [← symbolIndex_base32 _ _ _ _ _ hj]
  refine symbolIndex_congr (c := .base32) (fun k (hk : k < 5) => ?_) j
  simp only [List.getD_eq_getElem?_getD, List.getElem?_take_of_lt hk, List.getElem?_drop]
  match k, hk with
  | 0, _ | 1, _ | 2, _ | 3, _ | 4, _ => rfl

theorem b32Dec_of_not_whole {input : List Byte} (h : input.length % 8 ≠ 0) :
    b32Dec input = .err .malformedLength input.length := if_pos h

theorem b32Dec_of_whole {input : List Byte} (h : input.length % 8 = 0) :
    b32Dec input = decodeText .base32 .a32 input.zipIdx := if_neg (not_not.2 h)

end Sys2Proof.Machine
end

section
/-! SETTLED. The statements of the family 42_base32.md. -/

namespace Sys2Proof.Machine

/-- Settles O38: position `8g + j` is position `j` of group `g`, and the group's bytes are the input's from `5g` on. -/
theorem b32EncWritesFieldsAndPads : Obligations.B32EncWritesFieldsAndPads := by
  refine ⟨rfl, fun s hlong => exec_ends_of_overlong hlong _, fun s input hloaded => ?_⟩
  obtain ⟨t, hexec, hends⟩ := hloaded.exec_ends .b32enc
  refine ⟨t, _, hexec, hends, b32Enc_length rfl, fun g j hg hj => ?_⟩
  have hdata : isData .base32 j (min 5 (input.length - 5 * g)) = true ↔ 5 * j / 8 < min 5 (input.length - 5 * g) := by
    rw [isData, decide_eq_true_iff, symBits, Nat.mul_comm]
  rw [b32Enc_getElem? rfl hg hj, symbolIndex_base32_drop_take _ _ hj]
  simp only [hdata]
  split_ifs
  · exact (rom_getElem?_of_lt (Nat.mod_lt _ (by decide))).symm
  · rfl

/-- Settles O39: the length is checked first, and the windows of a whole number of them can only end with code 1. -/
theorem b32DecChecksForWholeWindows : Obligations.B32DecChecksForWholeWindows := by
  intro s input hloaded
  obtain ⟨t, hexec, hends⟩ := hloaded.exec_ends .b32dec
  refine ⟨t, hexec, ?_⟩
  rw [unitResult] at hends
  split_ifs with hwhole
  · rw [b32Dec_of_not_whole hwhole] at hends
    rw [hloaded.1]
    exact hends
  · rw [b32Dec_of_whole (not_not.1 hwhole)] at hends
    obtain ⟨out, hout⟩ | ⟨p, hp⟩ := decodeText_eq_ok_or_invalidSymbol .base32 .a32 input.zipIdx
    · rw [hout] at hends
      obtain ⟨-, -, hstatus, -⟩ := hends
      simp [hstatus]
    · rw [hp] at hends
      obtain ⟨-, -, hstatus, -⟩ := hends
      simp [hstatus, errorCode]

/-- Settles O40: the windows' bytes are those of the whole bit string of the indices. -/
theorem b32DecDeliversTheBytesBeforeTheFirstPad : Obligations.B32DecDeliversTheBytesBeforeTheFirstPad := by
  intro s input indices hloaded hwhole hsymbols hstop
  obtain ⟨t, hexec, hends⟩ := hloaded.exec_ends .b32dec
  have hpad : ∀ x ∈ input.zipIdx[indices.length]?, alphDec .a32 x.1 = .pad := by
    intro x hx
    have hx : x.1 ∈ input[indices.length]? := by
      rw [← List.zipIdx_map_fst 0 input, List.getElem?_map, hx]; rfl
    rcases hstop with hend | heq
    · simp [hend] at hx
    · exact (alphDec_eq_pad_iff _ _).2 ⟨by simpa [heq] using hx.symm, by decide⟩
  rw [unitResult, b32Dec_of_whole hwhole, decodeText_of_symbols rfl (by rwa [List.zipIdx_map_fst]) hpad] at hends
  refine ⟨t, _, hexec, hends, by rw [windowBytes_length, bytesFrom, symBits, Nat.mul_comm], fun k hk => ?_⟩
  have hk : k < bytesFrom .base32 indices.length := by simpa using hk
  rw [windowBytes_eq, List.getElem?_map, List.getElem?_range hk]
  rfl

/-- Settles O41: the first byte behind the symbols ends the scan of its window, and its position is its index. -/
theorem b32DecReportsTheFirstInvalidSymbol : Obligations.B32DecReportsTheFirstInvalidSymbol := by
  rintro s input indices hloaded hwhole hsymbols ⟨b, hb, hinvalid⟩
  obtain ⟨t, hexec, hends⟩ := hloaded.exec_ends .b32dec
  have hnext : input.zipIdx[indices.length]? = some (b, indices.length) := by simp [hb]
  rw [unitResult, b32Dec_of_whole hwhole, decodeText_of_invalid rfl (by rwa [List.zipIdx_map_fst]) hnext hinvalid] at hends
  exact ⟨t, hexec, hends⟩

/-- Settles O42: the encoding is whole windows of the symbols of the bytes' indices, with pad symbols behind them. -/
theorem base32RoundTrip : Obligations.Base32RoundTrip := by
  intro s bytes text henc hloaded
  obtain ⟨t, hexec, hends⟩ := hloaded.exec_ends .b32dec
  have hwhole : text.length % 8 = 0 := by rw [b32Enc_length henc]; omega
  have htext : text.zipIdx.map Prod.fst = (groupsOf (rawCount .base32) bytes).flatMap (encodeGroup .base32 .a32 false) := by
    rw [List.zipIdx_map_fst]
    exact (Result.ok.inj henc).symm
  rw [unitResult, b32Dec_of_whole hwhole, decodeText_encodeGroups rfl rfl false htext] at hends
  exact ⟨t, hexec, hends⟩

end Sys2Proof.Machine
end

section
/-! SUPPORT. What a decode that succeeds depends on: the lookups of the symbols, and neither their positions nor the alphabet
(42_base32.md R104, 43_base64.md R125). -/

namespace Sys2Proof.Machine

/-- Every text begins with some symbols, perhaps none, and then ends or has another byte. -/
theorem exists_leading_symbols (lookups : List Lookup) : ∃ is : List Nat,
    lookups.take is.length = is.map .val ∧ ∀ r ∈ lookups[is.length]?, ∀ i, r ≠ .val i := by
  induction lookups with
  | nil => exact ⟨[], by simp⟩
  | cons r lookups ih =>
    cases r with
    | val i =>
      obtain ⟨is, hsymbols, hnext⟩ := ih
      exact ⟨i :: is, by simpa using hsymbols, by simpa using hnext⟩
    | pad | invalid => exact ⟨[], by simp⟩

/-- A decode succeeds exactly where symbols are followed by a pad symbol or by the end, with the bytes that these symbols
determine (R107, R128). -/
theorem decodeText_eq_ok_iff {c : Codec} {sel : Alphabet} (hsize : alphabetSize sel = 2 ^ symBits c)
    (text : List (Byte × Nat)) (out : List Byte) : decodeText c sel text = .ok out ↔ ∃ is : List Nat,
      (text.map (alphDec sel ∘ Prod.fst)).take is.length = is.map .val ∧
      (∀ r ∈ (text.map (alphDec sel ∘ Prod.fst))[is.length]?, r = .pad) ∧ windowBytes c is = out := by
  have hdecode {is : List Nat} (hsymbols : (text.map (alphDec sel ∘ Prod.fst)).take is.length = is.map .val)
      (hpad : ∀ r ∈ (text.map (alphDec sel ∘ Prod.fst))[is.length]?, r = .pad) :
      decodeText c sel text = .ok (windowBytes c is) :=
    decodeText_of_symbols hsize (by rwa [SymbolsOf, List.map_take, List.map_map]) fun x hx =>
      hpad _ (by rw [List.getElem?_map, hx]; rfl)
  constructor
  · intro hok
    obtain ⟨is, hsymbols, hnext⟩ := exists_leading_symbols (text.map (alphDec sel ∘ Prod.fst))
    have hpad : ∀ r ∈ (text.map (alphDec sel ∘ Prod.fst))[is.length]?, r = .pad := by
      intro r hr
      rw [List.getElem?_map] at hr
      obtain ⟨⟨b, p⟩, hx, rfl⟩ := Option.map_eq_some_iff.1 hr
      cases hb : alphDec sel b with
      | pad => exact hb
      | val i => exact absurd hb (hnext _ (by rw [List.getElem?_map, hx]; rfl) i)
      | invalid =>
        rw [decodeText_of_invalid hsize (by rwa [SymbolsOf, List.map_take, List.map_map]) hx hb] at hok
        cases hok
    exact ⟨is, hsymbols, hpad, Result.ok.inj ((hdecode hsymbols hpad).symm.trans hok)⟩
  · rintro ⟨is, hsymbols, hpad, rfl⟩
    exact hdecode hsymbols hpad

/-- Texts whose symbols look up alike, each in its alphabet, decode to the same bytes. -/
theorem decodeText_eq_ok_iff_of_lookups_eq {c : Codec} {sel sel' : Alphabet} (hsize : alphabetSize sel = 2 ^ symBits c)
    (hsize' : alphabetSize sel' = 2 ^ symBits c) {text text' : List (Byte × Nat)}
    (h : text.map (alphDec sel ∘ Prod.fst) = text'.map (alphDec sel' ∘ Prod.fst)) (out : List Byte) :
    decodeText c sel text = .ok out ↔ decodeText c sel' text' = .ok out := by
  rw [decodeText_eq_ok_iff hsize, decodeText_eq_ok_iff hsize', h]

/-- The walk over windows does not end with `MalformedLength` (R127: that check comes before it). -/
theorem State.EndsWith.errCode_ne_malformedLength {s t : State} {c : Codec} {sel : Alphabet} {text : List (Byte × Nat)}
    (h : s.EndsWith (decodeText c sel text) t) : t.status.errCode ≠ 2 := by
  obtain ⟨out, hout⟩ | ⟨p, hp⟩ := decodeText_eq_ok_or_invalidSymbol c sel text
  · rw [hout] at h
    obtain ⟨-, -, hstatus, -⟩ := h
    simp [hstatus]
  · rw [hp] at h
    obtain ⟨-, -, hstatus, -⟩ := h
    simp [hstatus, errorCode]

/-- R82, byte by byte. -/
theorem windowBytes_getElem? {c : Codec} {is : List Nat} {k : Nat} (hk : k < (windowBytes c is).length) :
    (windowBytes c is)[k]? =
      some (BitVec.ofNat 8 (concatBits (symBits c) is / 2 ^ (symBits c * is.length - 8 * (k + 1)))) := by
  rw [windowBytes_length] at hk
  rw [windowBytes_eq, List.getElem?_map, List.getElem?_range hk]
  rfl

end Sys2Proof.Machine
end

section
/-! SUPPORT. The strip of `B64DEC` (43_base64.md R126), its length check (R127), and the two base64 alphabets (R124). -/

namespace Sys2Proof.Machine

/-! ### The stripped text -/

theorem isStripped_eq_false_iff (b : Byte) :
    isStripped b = false ↔ b ≠ 0x09 ∧ b ≠ 0x0A ∧ b ≠ 0x0D ∧ b ≠ 0x20 := by
  simp [isStripped, and_assoc]

/-- The bytes of the stripped text are the input's less the stripped ones. -/
theorem strippedText_map_fst (input : List Byte) :
    (strippedText input).map Prod.fst = input.filter fun c => !isStripped c := by
  conv_rhs => rw [← List.zipIdx_map_fst 0 input, List.filter_map]
  rfl

theorem strippedText_length (input : List Byte) :
    (strippedText input).length = (input.filter fun c => !isStripped c).length := by
  rw [← strippedText_map_fst, List.length_map]

/-- A kept byte stands in the stripped text, with its position, behind the stripped text of what precedes it. -/
theorem exists_strippedText_eq {input : List Byte} {p : Nat} {b : Byte} (hb : input[p]? = some b)
    (hkept : isStripped b = false) :
    ∃ rest, strippedText input = strippedText (input.take p) ++ (b, p) :: rest := by
  obtain ⟨hp, rfl⟩ := List.getElem?_eq_some_iff.1 hb
  have hsplit : input = input.take p ++ input[p] :: input.drop (p + 1) := by simp
  refine ⟨((input.drop (p + 1)).zipIdx (p + 1)).filter fun x => !isStripped x.1, ?_⟩
  conv_lhs => rw [hsplit, strippedText, List.zipIdx_append, List.zipIdx_cons, List.filter_append,
    List.length_take_of_le hp.le, Nat.zero_add, List.filter_cons_of_pos (by simpa using hkept)]
  rfl

/-! ### The unit -/

theorem b64Dec_of_malformed (u : Bool) {input : List Byte} (h : (strippedText input).length % 4 = 1) :
    b64Dec u input = .err .malformedLength input.length := if_pos h

theorem b64Dec_of_wellFormed (u : Bool) {input : List Byte} (h : (strippedText input).length % 4 ≠ 1) :
    b64Dec u input = decodeText .base64 (base64Alphabet u) (strippedText input) := if_neg h

/-! ### The two alphabets -/

theorem alphabetSize_base64Alphabet (u : Bool) : alphabetSize (base64Alphabet u) = 2 ^ symBits .base64 := by
  cases u <;> rfl

/-- `=` is the pad symbol of both alphabets, and of no other byte (R75). -/
theorem alphDec_base64Alphabet_eq_pad_iff (u : Bool) (b : Byte) : alphDec (base64Alphabet u) b = .pad ↔ b = padSymbol := by
  rw [alphDec_eq_pad_iff, and_iff_left (by cases u <;> decide)]
  rfl

end Sys2Proof.Machine
end

section
/-! SETTLED. The statements of the family 43_base64.md about the strip and the checks of `B64DEC`. -/

namespace Sys2Proof.Machine

/-- Settles O46: the stripped text is a selection from the input's bytes with their rising positions. -/
theorem base64StripRemovesExactlyWhitespace : Obligations.Base64StripRemovesExactlyWhitespace := by
  refine fun input => ⟨fun b p => ?_, List.Pairwise.filter _ ?_⟩
  · rw [strippedText, List.mem_filter, List.mem_zipIdx_iff_getElem?, Bool.not_eq_true', isStripped_eq_false_iff]
  · rw [← List.pairwise_map (f := Prod.snd) (R := (· < ·)), List.zipIdx_map_snd]
    exact List.pairwise_lt_range' 1

/-- Settles O47: the stripped length is checked first; then the windows, of which there are none where nothing is left,
can only end with code 1. -/
theorem b64DecChecksTheStrippedLength : Obligations.B64DecChecksTheStrippedLength := by
  intro s u input hloaded
  obtain ⟨t, hexec, hends⟩ := hloaded.exec_ends (.b64dec u)
  refine ⟨t, hexec, ?_, fun hempty => ?_⟩
  · rw [unitResult] at hends
    split_ifs with hlength
    · rw [b64Dec_of_malformed u hlength] at hends
      rw [hloaded.1]
      exact hends
    · rw [b64Dec_of_wellFormed u hlength] at hends
      exact hends.errCode_ne_malformedLength
  · rw [unitResult, b64Dec_of_wellFormed u (by omega), List.eq_nil_of_length_eq_zero hempty] at hends
    exact hends

/-- Settles O48: the windows' bytes are those of the whole bit string of the indices. -/
theorem b64DecDeliversTheBytesBeforeTheFirstPad : Obligations.B64DecDeliversTheBytesBeforeTheFirstPad := by
  intro s u input indices hloaded text hlength hsymbols hstop
  obtain ⟨t, hexec, hends⟩ := hloaded.exec_ends (.b64dec u)
  have hpad : ∀ x ∈ (strippedText input)[indices.length]?, alphDec (base64Alphabet u) x.1 = .pad := by
    intro x hx
    have hx : text[indices.length]? = some x.1 := by rw [List.getElem?_map, hx]; rfl
    rcases hstop with hend | heq
    · simp [hend] at hx
    · exact (alphDec_base64Alphabet_eq_pad_iff u _).2 (Option.some.inj (hx.symm.trans heq))
  rw [unitResult, b64Dec_of_wellFormed u (by simpa [text] using hlength),
    decodeText_of_symbols (alphabetSize_base64Alphabet u) hsymbols hpad] at hends
  exact ⟨t, _, hexec, hends, by rw [windowBytes_length, bytesFrom, symBits, Nat.mul_comm],
    fun k hk => windowBytes_getElem? hk⟩

/-- Settles O49: the first byte behind the symbols ends the scan of its window, and its position has been kept beside it. -/
theorem b64DecReportsTheFirstInvalidSymbol : Obligations.B64DecReportsTheFirstInvalidSymbol := by
  intro s u input indices b p hloaded text hlength hsymbols hnext hinvalid
  obtain ⟨t, hexec, hends⟩ := hloaded.exec_ends (.b64dec u)
  rw [unitResult, b64Dec_of_wellFormed u hlength,
    decodeText_of_invalid (alphabetSize_base64Alphabet u) hsymbols hnext hinvalid] at hends
  exact ⟨t, hexec, hends⟩

/-- Settles O51: stripping a stripped text removes nothing, and the positions have no part in the bytes. -/
theorem base64DecodeIgnoresWhitespace : Obligations.Base64DecodeIgnoresWhitespace := by
  intro u text bytes
  have hfst : (strippedText (text.filter fun c => !isStripped c)).map Prod.fst = (strippedText text).map Prod.fst := by
    rw [strippedText_map_fst, strippedText_map_fst, List.filter_filter]
    simp
  have hlength := congrArg List.length hfst
  rw [List.length_map, List.length_map] at hlength
  by_cases hm : (strippedText text).length % 4 = 1
  · rw [b64Dec_of_malformed u hm, b64Dec_of_malformed u (by rwa [hlength])]
    exact ⟨nofun, nofun⟩
  · rw [b64Dec_of_wellFormed u hm, b64Dec_of_wellFormed u (by rwa [hlength])]
    refine decodeText_eq_ok_iff_of_lookups_eq (alphabetSize_base64Alphabet u) (alphabetSize_base64Alphabet u) ?_ bytes
    rw [← List.map_map, ← List.map_map, hfst]

end Sys2Proof.Machine
end

section
/-! SUPPORT. The bytes of an encoding: what each of them is (43_base64.md R120), and what a removal of the line breaks or of
the pad symbols leaves (R122, R131). -/

namespace Sys2Proof.Machine

/-! ### The bytes of a group -/

theorem alphDec_alphEnc_symbolIndex {c : Codec} {sel : Alphabet} (hsize : alphabetSize sel = 2 ^ symBits c)
    (group : List Byte) {j : Nat} (hj : j < symCount c) :
    alphDec sel (alphEnc sel (symbolIndex c group j)) = .val (symbolIndex c group j) := by
  rw [alphDec_eq_val_iff_alphEnc, hsize, symbolIndex_eq group hj]
  exact ⟨Nat.mod_lt _ (by positivity), rfl⟩

theorem mem_encodeGroup {c : Codec} {sel : Alphabet} (hsize : alphabetSize sel = 2 ^ symBits c) {noPadding : Bool}
    {group : List Byte} {b : Byte} (h : b ∈ encodeGroup c sel noPadding group) :
    (∃ i, alphDec sel b = .val i) ∨ b = padSymbol := by
  obtain ⟨j, hj, hb⟩ := List.mem_flatMap.1 h
  split_ifs at hb
  · obtain rfl := List.mem_singleton.1 hb
    exact .inl ⟨_, alphDec_alphEnc_symbolIndex hsize group (List.mem_range.1 hj)⟩
  · exact absurd hb List.not_mem_nil
  · exact .inr (List.mem_singleton.1 hb)

/-- A filter that keeps the symbols of the alphabet can only take the pad symbols away. -/
theorem filter_encodeGroup {c : Codec} {sel : Alphabet} (hsize : alphabetSize sel = 2 ^ symBits c) {keep : Byte → Bool}
    (hkeep : ∀ b i, alphDec sel b = .val i → keep b = true) (noPadding : Bool) (group : List Byte) :
    (encodeGroup c sel noPadding group).filter keep = encodeGroup c sel (noPadding || !keep padSymbol) group := by
  rw [encodeGroup, List.filter_flatMap, encodeGroup]
  refine List.flatMap_congr fun j hj => ?_
  cases isData c j group.length with
  | true =>
    have hsymbol := hkeep _ _ (alphDec_alphEnc_symbolIndex hsize group (List.mem_range.1 hj))
    simp [hsymbol]
  | false =>
    cases noPadding with
    | true => rfl
    | false => cases hpad : keep padSymbol <;> simp [hpad]

/-! ### Line breaks -/

theorem mem_lineBreak_of_mem_breakBefore {wrap : Bool} {g : Nat} {b : Byte} (h : b ∈ breakBefore wrap g) :
    b ∈ lineBreak := by
  unfold breakBefore at h
  split_ifs at h
  · exact h
  · exact absurd h List.not_mem_nil

@[simp] theorem breakBefore_false (g : Nat) : breakBefore false g = [] := by simp [breakBefore]

/-- A filter that treats the two bytes of a line break alike keeps all line breaks or none. -/
theorem filter_breakBefore {keep : Byte → Bool} {kept : Bool} (hkept : ∀ b ∈ lineBreak, keep b = kept)
    (wrap : Bool) (g : Nat) : (breakBefore wrap g).filter keep = breakBefore (wrap && kept) g := by
  have hbreak : ∀ b ∈ breakBefore wrap g, keep b = kept := fun b hb => hkept b (mem_lineBreak_of_mem_breakBefore hb)
  cases kept with
  | true => rw [Bool.and_true, List.filter_eq_self.2 hbreak]
  | false => simpa using hbreak

/-! ### The bytes of an encoding -/

theorem mem_b64Enc {u np w : Bool} {input out : List Byte} (h : b64Enc u np w input = .ok out) {b : Byte} (hb : b ∈ out) :
    (∃ i, alphDec (base64Alphabet u) b = .val i) ∨ b = padSymbol ∨ b ∈ lineBreak := by
  obtain rfl := Result.ok.inj h
  obtain ⟨⟨group, g⟩, -, hb⟩ := List.mem_flatMap.1 hb
  rcases List.mem_append.1 hb with hb | hb
  · exact .inr (.inr (mem_lineBreak_of_mem_breakBefore hb))
  · exact (mem_encodeGroup (alphabetSize_base64Alphabet u) hb).imp_right .inl

/-- A filter that keeps the symbols takes line breaks or pad symbols away, as `WRAP` or `NO_PADDING`
would have (R122, R131). -/
theorem b64Enc_filter {u np w : Bool} {input out : List Byte} (h : b64Enc u np w input = .ok out) {keep : Byte → Bool}
    (hkeep : ∀ b i, alphDec (base64Alphabet u) b = .val i → keep b = true) {kept : Bool}
    (hkept : ∀ b ∈ lineBreak, keep b = kept) :
    b64Enc u (np || !keep padSymbol) (w && kept) input = .ok (out.filter keep) := by
  obtain rfl := Result.ok.inj h
  simp only [b64Enc, List.filter_flatMap, List.filter_append, filter_breakBefore hkept,
    filter_encodeGroup (alphabetSize_base64Alphabet u) hkeep]

theorem b64Enc_unwrapped (u np : Bool) (input : List Byte) : b64Enc u np false input =
    .ok ((groupsOf (rawCount .base64) input).flatMap (encodeGroup .base64 (base64Alphabet u) np)) := by
  conv_rhs => rw [← List.zipIdx_map_fst 0 (groupsOf (rawCount .base64) input), List.flatMap_map]
  simp [b64Enc]

/-- Whitespace is in neither alphabet (R126). -/
theorem alphDec_base64Alphabet_of_isStripped (u : Bool) {b : Byte} (h : isStripped b = true) :
    alphDec (base64Alphabet u) b = .invalid := by
  have hmem : b ∈ [0x09, 0x0A, 0x0D, 0x20] := by simpa [isStripped, or_assoc] using h
  exact (by decide : ∀ u, ∀ b ∈ [0x09, 0x0A, 0x0D, 0x20], alphDec (base64Alphabet u) b = .invalid) u b hmem

theorem not_isStripped_and_ne_pad_of_symbol {u : Bool} {b : Byte} {i : Nat} (h : alphDec (base64Alphabet u) b = .val i) :
    isStripped b = false ∧ b ≠ padSymbol := by
  constructor
  · by_contra hstripped
    rw [alphDec_base64Alphabet_of_isStripped u (Bool.not_eq_false _ ▸ hstripped)] at h
    cases h
  · rintro rfl
    rw [(alphDec_base64Alphabet_eq_pad_iff u _).2 rfl] at h
    cases h

/-- The bytes of a wrapped padded encoding that stay under the given flags (R131). -/
def keptWith (noPadding wrap : Bool) (c : Byte) : Bool := (wrap || (c != 0x0D && c != 0x0A)) && (!noPadding || c != 0x3D)

theorem keptWith_of_symbol {np w u : Bool} {b : Byte} {i : Nat} (h : alphDec (base64Alphabet u) b = .val i) :
    keptWith np w b = true := by
  obtain ⟨hkept, hpad⟩ := not_isStripped_and_ne_pad_of_symbol h
  obtain ⟨-, hlf, hcr, -⟩ := (isStripped_eq_false_iff b).1 hkept
  simpa [keptWith] using ⟨.inr ⟨hcr, hlf⟩, .inr hpad⟩

theorem keptWith_of_mem_lineBreak {np w : Bool} {b : Byte} (h : b ∈ lineBreak) : keptWith np w b = w :=
  (by decide : ∀ np w, ∀ b ∈ lineBreak, keptWith np w b = w) np w b h

theorem keptWith_padSymbol (np w : Bool) : keptWith np w padSymbol = !np := by cases w <;> cases np <;> rfl

/-- Stripping an encoding takes its line breaks away and nothing else. -/
theorem strippedText_map_fst_of_b64Enc {u np w : Bool} {bytes text : List Byte} (h : b64Enc u np w bytes = .ok text) :
    (strippedText text).map Prod.fst =
      (groupsOf (rawCount .base64) bytes).flatMap (encodeGroup .base64 (base64Alphabet u) np) := by
  have hstripped := b64Enc_filter h (keep := fun c => !isStripped c) (kept := false)
    (fun b i hb => by rw [(not_isStripped_and_ne_pad_of_symbol hb).1]; rfl) (by decide)
  rw [show (!(!isStripped padSymbol)) = false from rfl, Bool.or_false, Bool.and_false, b64Enc_unwrapped] at hstripped
  rw [strippedText_map_fst]
  exact (Result.ok.inj hstripped).symm

end Sys2Proof.Machine
end

section
/-! SUPPORT. The lengths of an encoding without its line breaks (43_base64.md R130), which the length check of `B64DEC`
accepts (R127). -/

namespace Sys2Proof.Machine

theorem dataSyms_add_rawCount (c : Codec) (r : Nat) : dataSyms c (rawCount c + r) = symCount c + dataSyms c r := by
  cases c <;> simp only [rawCount, dataSyms, ceilDiv, symBits, symCount] <;> omega

/-- R80 for a whole input: it has as many data symbols as it takes to hold its bits. -/
theorem dataIndices_length (c : Codec) (bytes : List Byte) : (dataIndices c bytes).length = dataSyms c bytes.length := by
  induction bytes using groups_induction (rawCount_pos c) with
  | short bytes h => rw [dataIndices_of_short h.le, groupIndices_length]
  | whole front rest h ih =>
    rw [dataIndices_append h, List.length_append, groupIndices_length, h, dataSyms_rawCount, ih, List.length_append, h,
      dataSyms_add_rawCount]

/-- Without pad symbols an encoding is the symbols of its indices. -/
theorem encodeGroups_unpadded (c : Codec) (sel : Alphabet) (bytes : List Byte) :
    (groupsOf (rawCount c) bytes).flatMap (encodeGroup c sel true) = (dataIndices c bytes).map (alphEnc sel) := by
  rw [dataIndices, List.map_flatMap]
  refine List.flatMap_congr fun group hgroup => ?_
  rw [encodeGroup_eq sel true (length_le_of_mem_groupsOf hgroup), if_pos rfl, List.append_nil]

theorem encodeGroups_length (c : Codec) (sel : Alphabet) (np : Bool) (bytes : List Byte) :
    ((groupsOf (rawCount c) bytes).flatMap (encodeGroup c sel np)).length =
      if np then dataSyms c bytes.length else symCount c * ceilDiv bytes.length (rawCount c) := by
  cases np with
  | true => rw [encodeGroups_unpadded, List.length_map, dataIndices_length, if_pos rfl]
  | false =>
    rw [length_flatMap_of_length_eq fun group _ => encodeGroup_padded_length c sel group, groupsOf_length]
    rfl

/-- R130 without line breaks. -/
theorem encodeGroups_base64_length (sel : Alphabet) (np : Bool) (bytes : List Byte) :
    ((groupsOf 3 bytes).flatMap (encodeGroup .base64 sel np)).length =
      if np then (4 * bytes.length + 2) / 3 else 4 * ((bytes.length + 2) / 3) := by
  have hdata : dataSyms .base64 bytes.length = (4 * bytes.length + 2) / 3 := by
    simp only [dataSyms, ceilDiv, symBits]
    omega
  rw [← hdata]
  exact encodeGroups_length .base64 sel np bytes

theorem b64Dec_eq_decodeText_of_b64Enc {u np w : Bool} {bytes text : List Byte} (h : b64Enc u np w bytes = .ok text)
    (v : Bool) : b64Dec v text = decodeText .base64 (base64Alphabet v) (strippedText text) := by
  have hlength := congrArg List.length (strippedText_map_fst_of_b64Enc h)
  rw [List.length_map, rawCount, encodeGroups_base64_length] at hlength
  refine b64Dec_of_wellFormed v ?_
  split_ifs at hlength <;> omega

/-- An encoding decodes, in its alphabet, to the bytes that were encoded. -/
theorem decodeText_strippedText_of_b64Enc {u np w : Bool} {bytes text : List Byte} (h : b64Enc u np w bytes = .ok text) :
    decodeText .base64 (base64Alphabet u) (strippedText text) = .ok bytes :=
  decodeText_encodeGroups (alphabetSize_base64Alphabet u) ((alphDec_base64Alphabet_eq_pad_iff u _).2 rfl) np
    (strippedText_map_fst_of_b64Enc h)

end Sys2Proof.Machine
end

section
/-! SUPPORT. An encoding seen by the other base64 alphabet (43_base64.md R124, R131). -/

namespace Sys2Proof.Machine

/-- The symbols that one base64 alphabet has and the other has not (R72, R73): `+ / - _`. -/
def isSpecial (c : Byte) : Bool := c == 0x2B || c == 0x2F || c == 0x2D || c == 0x5F

theorem isSpecial_iff (c : Byte) : isSpecial c = true ↔ c ∈ [0x2B, 0x2F, 0x2D, 0x5F] := by
  simp [isSpecial, or_assoc]

/-- The alphabets agree on every other byte. -/
theorem alphDec_not_of_not_isSpecial (u : Bool) {c : Byte} (h : isSpecial c = false) :
    alphDec (base64Alphabet (!u)) c = alphDec (base64Alphabet u) c := by
  have hne {x : Byte} (hx : x ∈ [0x2B, 0x2F, 0x2D, 0x5F]) : c.toNat ≠ x.toNat := fun heq => by
    rw [← BitVec.toNat_inj.1 heq, ← isSpecial_iff, h] at hx
    cases hx
  have hplus : c.toNat ≠ 0x2B := hne (x := 0x2B) (by decide)
  have hslash : c.toNat ≠ 0x2F := hne (x := 0x2F) (by decide)
  have hminus : c.toNat ≠ 0x2D := hne (x := 0x2D) (by decide)
  have hunderscore : c.toNat ≠ 0x5F := hne (x := 0x5F) (by decide)
  have hagree : alphDec .a64u c = alphDec .a64s c := by
    simp only [alphDec, alphDecBase64, hplus, hslash, hminus, hunderscore, if_false]
  cases u with
  | false => exact hagree
  | true => exact hagree.symm

/-- Each special symbol is in one alphabet and invalid in the other. -/
theorem alphDec_not_of_isSpecial {u : Bool} {c : Byte} {i : Nat} (h : isSpecial c = true)
    (hsymbol : alphDec (base64Alphabet u) c = .val i) : alphDec (base64Alphabet (!u)) c = .invalid := by
  have hone : ∀ u, ∀ c ∈ [0x2B, 0x2F, 0x2D, 0x5F],
      alphDec (base64Alphabet u) c = .invalid ∨ alphDec (base64Alphabet (!u)) c = .invalid := by decide
  refine (hone u c ((isSpecial_iff c).1 h)).resolve_left fun hinvalid => ?_
  rw [hinvalid] at hsymbol
  cases hsymbol

theorem not_isStripped_and_ne_pad_of_isSpecial {c : Byte} (h : isSpecial c = true) :
    isStripped c = false ∧ c ≠ padSymbol :=
  (by decide : ∀ c ∈ [0x2B, 0x2F, 0x2D, 0x5F], isStripped c = false ∧ c ≠ padSymbol) c ((isSpecial_iff c).1 h)

/-- An encoding without special symbols is one of the other alphabet too. -/
theorem decodeText_not_of_no_special {u np w : Bool} {bytes text : List Byte} (h : b64Enc u np w bytes = .ok text)
    (hnone : ∀ c ∈ text, isSpecial c = false) :
    decodeText .base64 (base64Alphabet (!u)) (strippedText text) = .ok bytes := by
  refine (decodeText_eq_ok_iff_of_lookups_eq (alphabetSize_base64Alphabet _) (alphabetSize_base64Alphabet u)
    (List.map_congr_left fun x hx => ?_) bytes).2 (decodeText_strippedText_of_b64Enc h)
  have hx : x.1 ∈ text.filter fun c => !isStripped c := by
    rw [← strippedText_map_fst]
    exact List.mem_map_of_mem hx
  exact alphDec_not_of_not_isSpecial u (hnone _ (List.mem_of_mem_filter hx))

/-- What precedes an element other than `pad` precedes the padding. -/
theorem exists_eq_append_cons_of_append_replicate {α : Type} {xs front rest : List α} {n : Nat} {pad c : α}
    (h : xs ++ List.replicate n pad = front ++ c :: rest) (hc : c ≠ pad) : ∃ more, xs = front ++ c :: more := by
  obtain ⟨as, -, hpads⟩ | ⟨more, rfl, hrest⟩ := List.append_eq_append_iff.1 h
  · have hmem : c ∈ List.replicate n pad := by simp [hpads]
    exact absurd (List.eq_of_mem_replicate hmem) hc
  · cases more with
    | nil =>
      have hmem : c ∈ [] ++ List.replicate n pad := hrest ▸ List.mem_cons_self
      exact absurd (List.eq_of_mem_replicate hmem) hc
    | cons c' more =>
      obtain rfl := (List.cons.inj hrest).1
      exact ⟨more, rfl⟩

/-- Where a symbol of an encoding is neither whitespace nor padding, the stripped text before it is symbols alone. -/
theorem symbols_before_symbol {u np w : Bool} {bytes text : List Byte} (h : b64Enc u np w bytes = .ok text)
    {front rest : List Byte} {c : Byte} (hsplit : (strippedText text).map Prod.fst = front ++ c :: rest)
    (hc : c ≠ padSymbol) : (∃ is : List Nat, front.map (alphDec (base64Alphabet u)) = is.map .val) ∧
      ∃ i, alphDec (base64Alphabet u) c = .val i := by
  obtain ⟨n, hn⟩ := exists_encodeGroups_eq .base64 (base64Alphabet u) np bytes
  obtain ⟨more, hmore⟩ := exists_eq_append_cons_of_append_replicate
    (hn.symm.trans ((strippedText_map_fst_of_b64Enc h).symm.trans hsplit)) hc
  have hsymbols : (front ++ c :: more).map (alphDec (base64Alphabet u)) = (dataIndices .base64 bytes).map .val := by
    rw [← hmore, map_alphDec_eq_map_val_iff, alphabetSize_base64Alphabet]
    exact ⟨fun _ => lt_of_mem_dataIndices, rfl⟩
  rw [List.map_append] at hsymbols
  obtain ⟨is, js, -, hfront, hrest⟩ := List.map_eq_append_iff.1 hsymbols.symm
  obtain ⟨i, -, -, hi, -⟩ := List.map_eq_cons_iff.1 hrest
  exact ⟨⟨is, hfront.symm⟩, i, hi.symm⟩

/-- The other alphabet reports the first special symbol of an encoding: all before it are symbols of both alphabets. -/
theorem decodeText_not_of_first_special {u np w : Bool} {bytes text : List Byte} (h : b64Enc u np w bytes = .ok text)
    {p : Nat} {c : Byte} (hp : text[p]? = some c) (hc : isSpecial c = true)
    (hfirst : ∀ b ∈ text.take p, isSpecial b = false) :
    decodeText .base64 (base64Alphabet (!u)) (strippedText text) = .err .invalidSymbol p := by
  obtain ⟨hkept, hnotPad⟩ := not_isStripped_and_ne_pad_of_isSpecial hc
  obtain ⟨rest, hsplit⟩ := exists_strippedText_eq hp hkept
  have hbytes := congrArg (List.map Prod.fst) hsplit
  rw [List.map_append, List.map_cons] at hbytes
  obtain ⟨⟨is, his⟩, i, hi⟩ := symbols_before_symbol h hbytes hnotPad
  have hlength : (strippedText (text.take p)).length = is.length := by simpa using congrArg List.length his
  have hsymbols : SymbolsOf (base64Alphabet (!u)) ((strippedText text).map Prod.fst) is := by
    rw [SymbolsOf, hbytes, ← hlength, List.take_left' (List.length_map _), ← his]
    refine List.map_congr_left fun b hb => alphDec_not_of_not_isSpecial u (hfirst b ?_)
    rw [strippedText_map_fst] at hb
    exact List.mem_of_mem_filter hb
  refine decodeText_of_invalid (b := c) (alphabetSize_base64Alphabet _) hsymbols ?_ (alphDec_not_of_isSpecial hc hi)
  simp [hsplit, ← hlength]

end Sys2Proof.Machine
end

section
/-! SETTLED. The statements of the family 43_base64.md about what a decoder makes of an encoding. -/

namespace Sys2Proof.Machine

/-- Settles O44: a byte of the output is a symbol of the selected alphabet, `=`, CR or LF, and none of these is a
special symbol of the other alphabet. -/
theorem base64AlphabetExclusivity : Obligations.Base64AlphabetExclusivity := by
  intro u np w input out henc c hc
  have hother : ∀ b, alphDec (base64Alphabet u) b = .invalid → b ≠ padSymbol → b ∉ lineBreak → c ≠ b := by
    rintro b hinvalid hpad hbreak rfl
    obtain ⟨i, hi⟩ | hc := mem_b64Enc henc hc
    · rw [hinvalid] at hi
      cases hi
    · exact hc.elim hpad hbreak
  cases u with
  | true => exact ⟨hother _ rfl (by decide) (by decide), hother _ rfl (by decide) (by decide)⟩
  | false => exact ⟨hother _ rfl (by decide) (by decide), hother _ rfl (by decide) (by decide)⟩

/-- Settles O45: the filter keeps the symbols, which are neither CR nor LF nor `=`. -/
theorem base64WrapAndPaddingOnlyAddBytes : Obligations.Base64WrapAndPaddingOnlyAddBytes := by
  intro u np w input full henc
  have hfilter := b64Enc_filter (keep := keptWith np w) henc (fun _ _ => keptWith_of_symbol)
    fun _ => keptWith_of_mem_lineBreak
  rw [keptWith_padSymbol, Bool.not_not, Bool.false_or, Bool.true_and] at hfilter
  exact hfilter

/-- Settles O50: stripping leaves the symbols of the bytes' indices, with pad symbols behind them or not. -/
theorem base64RoundTrip : Obligations.Base64RoundTrip := by
  intro s u np w bytes text henc hloaded
  obtain ⟨t, hexec, hends⟩ := hloaded.exec_ends (.b64dec u)
  rw [unitResult, b64Dec_eq_decodeText_of_b64Enc henc, decodeText_strippedText_of_b64Enc henc] at hends
  exact ⟨t, hexec, hends⟩

/-- Settles O52: the alphabets differ in the special symbols alone, of which an encoding holds those of its own alphabet. -/
theorem base64OtherAlphabetAgreesOrReports : Obligations.Base64OtherAlphabetAgreesOrReports := by
  intro s u np w bytes text henc hloaded special
  obtain ⟨t, hexec, hends⟩ := hloaded.exec_ends (.b64dec (!u))
  rw [unitResult, b64Dec_eq_decodeText_of_b64Enc henc] at hends
  refine ⟨t, hexec, ?_⟩
  cases hfind : text.findIdx? special with
  | none =>
    rw [decodeText_not_of_no_special henc (List.findIdx?_eq_none_iff.1 hfind)] at hends
    exact hends
  | some p =>
    obtain ⟨hp, hspecial, hfirst⟩ := List.findIdx?_eq_some_iff_getElem.1 hfind
    have hbefore : ∀ b ∈ text.take p, isSpecial b = false := by
      intro b hb
      obtain ⟨q, hq, rfl⟩ := List.mem_take_iff_getElem.1 hb
      exact Bool.not_eq_true _ ▸ hfirst q (by omega)
    rw [decodeText_not_of_first_special henc (List.getElem?_eq_getElem hp) hspecial hbefore] at hends
    exact hends

end Sys2Proof.Machine
end

section
/-! SUPPORT. Where the symbols and the line breaks of `B64ENC` stand (43_base64.md R120, R123, R130). -/

namespace Sys2Proof.Machine

/-! ### Walks whose items differ in length -/

/-- What an item of a walk gives stands behind what the items before it give. -/
theorem getElem?_flatMap_of_getElem? {α β : Type} (f : α → List β) {xs : List α} {g : Nat} {x : α}
    (hx : xs[g]? = some x) {j : Nat} (hj : j < (f x).length) :
    (xs.flatMap f)[((xs.take g).flatMap f).length + j]? = (f x)[j]? := by
  obtain ⟨hg, rfl⟩ := List.getElem?_eq_some_iff.1 hx
  have hsplit : xs.flatMap f = (xs.take g).flatMap f ++ (f xs[g] ++ (xs.drop (g + 1)).flatMap f) := by
    rw [← List.flatMap_cons, ← List.flatMap_append, List.getElem_cons_drop, List.take_append_drop]
  rw [hsplit, List.getElem?_append_right (Nat.le_add_right _ _), Nat.add_sub_cancel_left,
    List.getElem?_append_left hj]

theorem take_zipIdx {α : Type} (xs : List α) (g : Nat) : xs.zipIdx.take g = (xs.take g).zipIdx := by
  refine List.ext_getElem? fun i => ?_
  rcases Nat.lt_or_ge i g with hi | hi
  · rw [List.getElem?_take_of_lt hi, List.getElem?_zipIdx, List.getElem?_zipIdx, List.getElem?_take_of_lt hi]
  · rw [List.getElem?_take_eq_none hi, List.getElem?_zipIdx, List.getElem?_take_eq_none hi, Option.map_none]

/-- The groups before one that is not past the end are whole. -/
theorem length_of_mem_take_groupsOf {α : Type} {size g : Nat} {xs w : List α} (hg : size * g ≤ xs.length)
    (h : w ∈ (groupsOf size xs).take g) : w.length = size := by
  rw [groupsOf, ← List.map_take, List.take_range, List.mem_map] at h
  obtain ⟨i, hi, rfl⟩ := h
  have hi : i < g := (List.mem_range.1 hi).trans_le (Nat.min_le_left _ _)
  have hend : size * (i + 1) ≤ xs.length := (Nat.mul_le_mul_left _ hi).trans hg
  rw [Nat.mul_succ] at hend
  exact List.length_take_of_le (by rw [List.length_drop]; omega)

/-! ### Line breaks -/

/-- How many line breaks precede the symbols of group `g` (R123). -/
def lineBreaks (wrap : Bool) (g : Nat) : Nat := if wrap then g / wrapGroups else 0

theorem lineBreaks_add_breakBefore_length (wrap : Bool) (g : Nat) :
    2 * lineBreaks wrap (g - 1) + (breakBefore wrap g).length = 2 * lineBreaks wrap g := by
  cases wrap with
  | false => rfl
  | true =>
    simp only [lineBreaks, breakBefore, wrapGroups, true_and, if_true]
    split_ifs
    · simp only [lineBreak, List.length_cons, List.length_nil]; omega
    · rw [List.length_nil]; omega

/-- R130: the line breaks add two bytes each. -/
theorem wrappedGroups_length (sel : Alphabet) (np wrap : Bool) (gs : List (List Byte)) :
    (gs.zipIdx.flatMap fun (group, g) => breakBefore wrap g ++ encodeGroup .base64 sel np group).length =
      (gs.flatMap (encodeGroup .base64 sel np)).length + 2 * lineBreaks wrap (gs.length - 1) := by
  induction gs using List.reverseRecOn with
  | nil => cases wrap <;> rfl
  | append_singleton gs group ih =>
    have hbreak := lineBreaks_add_breakBefore_length wrap gs.length
    simp only [List.zipIdx_append, List.flatMap_append, List.length_append, List.zipIdx_singleton, List.flatMap_singleton,
      List.length_singleton, Nat.zero_add, Nat.add_sub_cancel] at ih ⊢
    omega

/-! ### The symbols -/

theorem encodeGroup_whole_length {c : Codec} (sel : Alphabet) (np : Bool) {group : List Byte}
    (h : group.length = rawCount c) : (encodeGroup c sel np group).length = symCount c := by
  have hpad : padCount c group.length = 0 := by rw [h, padCount, dataSyms_rawCount, Nat.sub_self]
  rw [encodeGroup_eq sel np h.le, hpad, List.replicate_zero, ite_self, List.append_nil, List.length_map,
    groupIndices_length, h, dataSyms_rawCount]

/-- A data symbol stands at its position with and without pad symbols behind it. -/
theorem encodeGroup_getElem?_of_isData {c : Codec} (sel : Alphabet) (np : Bool) {group : List Byte}
    (h : group.length ≤ rawCount c) {j : Nat} (hj : isData c j group.length = true) :
    (encodeGroup c sel np group)[j]? = some (alphEnc sel (symbolIndex c group j)) := by
  rw [isData_iff] at hj
  rw [encodeGroup_eq sel np h, List.getElem?_append_left (by simpa using hj)]
  simp [groupIndices, hj]

theorem encodeGroup_getElem?_of_not_isData {c : Codec} (sel : Alphabet) {group : List Byte} {j : Nat} (hlt : j < symCount c)
    (hj : ¬ isData c j group.length = true) : (encodeGroup c sel false group)[j]? = some padSymbol := by
  simp [encodeGroup_padded, hlt, hj]

section Output

variable {u np w : Bool} {input out : List Byte} {g : Nat}

/-- R130. -/
theorem b64Enc_length (h : b64Enc u np w input = .ok out) : out.length =
    (if np then (4 * input.length + 2) / 3 else 4 * ((input.length + 2) / 3)) +
      2 * lineBreaks w ((input.length + 2) / 3 - 1) := by
  obtain rfl := Result.ok.inj h
  rw [wrappedGroups_length, rawCount, encodeGroups_base64_length, groupsOf_length]
  rfl

/-- Group `g` stands, after its line break, behind four symbols of each group before it and the line breaks among these. -/
theorem b64Enc_getElem? (h : b64Enc u np w input = .ok out) (hg : 3 * g < input.length) {j : Nat}
    (hj : j < (breakBefore w g ++ encodeGroup .base64 (base64Alphabet u) np ((input.drop (3 * g)).take 3)).length) :
    out[4 * g + 2 * lineBreaks w (g - 1) + j]? =
      (breakBefore w g ++ encodeGroup .base64 (base64Alphabet u) np ((input.drop (3 * g)).take 3))[j]? := by
  obtain rfl := Result.ok.inj h
  have hgroup := groupsOf_getElem? (rawCount_pos .base64) hg
  have hlt := (List.getElem?_eq_some_iff.1 hgroup).1
  have hbefore : (((groupsOf (rawCount .base64) input).zipIdx.take g).flatMap fun (group, g) =>
      breakBefore w g ++ encodeGroup .base64 (base64Alphabet u) np group).length = 4 * g + 2 * lineBreaks w (g - 1) := by
    rw [take_zipIdx, wrappedGroups_length, List.length_take_of_le hlt.le, length_flatMap_of_length_eq fun group hmem =>
      encodeGroup_whole_length _ np (length_of_mem_take_groupsOf (size := rawCount .base64) hg.le hmem),
      List.length_take_of_le hlt.le]
    rfl
  rw [← hbefore]
  refine getElem?_flatMap_of_getElem? _ (x := ((input.drop (3 * g)).take 3, g)) ?_ hj
  rw [List.getElem?_zipIdx, hgroup]
  simp [rawCount]

theorem b64Enc_getElem?_symbol (h : b64Enc u np w input = .ok out) (hg : 3 * g < input.length) {j : Nat} {b : Byte}
    (hj : (encodeGroup .base64 (base64Alphabet u) np ((input.drop (3 * g)).take 3))[j]? = some b) :
    out[4 * g + j + 2 * lineBreaks w g]? = some b := by
  have hlt := (List.getElem?_eq_some_iff.1 hj).1
  have hat := b64Enc_getElem? h hg (j := (breakBefore w g).length + j) (by rw [List.length_append]; omega)
  rw [List.getElem?_append_right (Nat.le_add_right _ _), Nat.add_sub_cancel_left, hj] at hat
  rw [← hat, ← lineBreaks_add_breakBefore_length w g]
  congr 1
  omega

theorem b64Enc_getElem?_lineBreak (h : b64Enc u np true input = .ok out) (hg : 3 * g < input.length) (hpos : 1 ≤ g)
    (hline : g % 19 = 0) : out[4 * g + 2 * lineBreaks true g - 2]? = some 0x0D ∧
      out[4 * g + 2 * lineBreaks true g - 1]? = some 0x0A := by
  have hbreak : breakBefore true g = lineBreak := if_pos ⟨rfl, hpos, hline⟩
  have hlength := lineBreaks_add_breakBefore_length true g
  have hcr := b64Enc_getElem? h hg (j := 0) (by simp [hbreak, lineBreak])
  have hlf := b64Enc_getElem? h hg (j := 1) (by simp [hbreak, lineBreak])
  rw [hbreak] at hlength hcr hlf
  rw [← hlength]
  exact ⟨hcr, hlf⟩

end Output

/-- R60 for a group inside an input, which the NUL fill completes. -/
theorem symbolIndex_base64_drop_take (input : List Byte) (o : Nat) {j : Nat} (hj : j < 4) :
    symbolIndex .base64 ((input.drop o).take 3) j =
      ((input.getD (o + 0) 0).toNat * 2 ^ 16 + (input.getD (o + 1) 0).toNat * 2 ^ 8 +
        (input.getD (o + 2) 0).toNat) / 2 ^ (18 - 6 * j) % 64 := by
  rw [← symbolIndex_base64 _ _ _ hj]
  refine symbolIndex_congr (c := .base64) (fun k (hk : k < 3) => ?_) j
  simp only [List.getD_eq_getElem?_getD, List.getElem?_take_of_lt hk, List.getElem?_drop]
  match k, hk with
  | 0, _ | 1, _ | 2, _ => rfl

/-- R81 for a group inside an input. -/
theorem isData_base64_drop_take_iff (input : List Byte) (g j : Nat) :
    isData .base64 j ((input.drop (3 * g)).take 3).length = true ↔ 6 * j / 8 < min 3 (input.length - 3 * g) := by
  rw [isData, decide_eq_true_iff, List.length_take, List.length_drop, symBits, Nat.mul_comm]

end Sys2Proof.Machine
end

section
/-! SETTLED. The statement of the family 43_base64.md about the output of `B64ENC`. -/

namespace Sys2Proof.Machine

/-- Settles O43: each group's symbols stand behind the whole groups and the line breaks before it. -/
theorem b64EncWritesFieldsPadsAndBreaks : Obligations.B64EncWritesFieldsPadsAndBreaks := by
  refine ⟨fun u np w => ?_, fun s u np w hlong => exec_ends_of_overlong hlong _, fun s u np w input hloaded => ?_⟩
  · revert u np w; decide
  obtain ⟨t, hexec, hends⟩ := hloaded.exec_ends (.b64enc u np w)
  refine ⟨t, _, hexec, hends, b64Enc_length rfl, fun g j hg hj => ?_, fun g hw hpos hline hg => ?_⟩
  · have hshort : ((input.drop (3 * g)).take 3).length ≤ rawCount .base64 := List.length_take_le ..
    have hsize : alphabetSize (base64Alphabet u) = 64 := alphabetSize_base64Alphabet u
    intro b v at'
    split
    case isTrue hdata =>
      have hsymbol := encodeGroup_getElem?_of_isData (base64Alphabet u) np hshort
        ((isData_base64_drop_take_iff input g j).2 hdata)
      rw [symbolIndex_base64_drop_take input (3 * g) hj] at hsymbol
      exact (b64Enc_getElem?_symbol rfl hg hsymbol).trans
        (rom_getElem?_of_lt (by rw [hsize]; exact Nat.mod_lt _ (by decide))).symm
    case isFalse hpad =>
      rintro rfl
      exact b64Enc_getElem?_symbol rfl hg (encodeGroup_getElem?_of_not_isData _ hj
        (mt (isData_base64_drop_take_iff input g j).1 hpad))
  · subst hw
    exact b64Enc_getElem?_lineBreak rfl hg hpos hline

end Sys2Proof.Machine
end

section
/-! SUPPORT. Where `Exec` answers `IllegalCommand` (60_exceptions.md R143). -/

namespace Sys2Proof.Machine

/-- `Exec` answers `IllegalCommand` at position 0 for an illegal command byte, and for an over-long input to a legal one. -/
theorem execResult_of_illegal_or_overlong {cmd : Byte} {len cap : Nat}
    (h : (∃ y, decode cmd = .illegal y) ∨ cap < len) (input : List Byte) :
    execResult cmd len cap input = .err .illegalCommand 0 := by
  unfold execResult
  split
  case h_1 => rfl
  case h_2 i hlegal =>
    have hlong : len > cap := h.resolve_left (by simp [hlegal])
    exact if_pos hlong

end Sys2Proof.Machine
end

section
/-! SETTLED. The statements of the family 60_exceptions.md. -/

namespace Sys2Proof.Machine

/-- Settles O11: the core's turn in a busy block is the completion with the result of `Exec`, whichever kind that is. -/
theorem completionDeliversTheResultOfExec : Obligations.CompletionDeliversTheResultOfExec :=
  fun _ _ hp hcore hbusy => ⟨_, step_core_of_busy hp hcore hbusy, State.complete_ends _ _⟩

/-- Settles O12: either cause makes `IllegalCommand` the result of `Exec`, which the completion of O11 reports. -/
theorem illegalLaunchEndsWithIllegalCommand : Obligations.IllegalLaunchEndsWithIllegalCommand := by
  intro s rest hp hcore hbusy hcause
  obtain ⟨t, hstep, hends⟩ := completionDeliversTheResultOfExec s rest hp hcore hbusy
  rw [execResult_of_illegal_or_overlong hcause] at hends
  exact ⟨t, hstep, hends⟩

/-- Settles O13: the length check comes before the unit, so every operation ends alike. -/
theorem overlongInputIsIllegalForEveryOperation : Obligations.OverlongInputIsIllegalForEveryOperation :=
  fun i _ hlong => exec_ends_of_overlong hlong i

end Sys2Proof.Machine
end

section
/-! SUPPORT. What a busy block does with the host's moves and at the core's turn, and what it holds (70_reset_and_hazards.md
R165, R166, R168). -/

namespace Sys2Proof.Machine

/-- A busy block drops a write of host read/write state. -/
theorem State.unlessBusy_of_busy {s : State} (h : s.status.busy = true) (t : State) : s.unlessBusy t = s := by
  simp [State.unlessBusy, h]

/-- The writes of host read-only state, which change nothing at any time (70_reset_and_hazards.md R168). -/
theorem State.hostMove_of_readOnly {s : State} {m : HostMove} (hm : m.WF s.params)
    (hreadOnly : (∃ n, m = .writeDstLen n ∨ m = .writeErrPos n) ∨ (∃ b, m = .writeStatus b) ∨ ∃ k b, m = .writeDst k b) :
    s.hostMove m = .next s := by
  rcases hreadOnly with ⟨n, rfl | rfl⟩ | ⟨b, rfl⟩ | ⟨k, b, rfl⟩
  · exact State.withLength_of_fits hm s
  · exact State.withLength_of_fits hm s
  · rfl
  · exact withCell_of_lt hm _

/-- Any write of the host while the block is busy. -/
theorem State.hostMove_write_of_busy {s : State} {m : HostMove} (hbusy : s.status.busy = true) (hm : m.WF s.params)
    (hwrite : ∀ p, m ≠ .read p) : s.hostMove m = .next s := by
  cases m with
  | writeCmd c => rw [State.hostMove, State.unlessBusy_of_busy hbusy]
  | writeSrcLen n => rw [State.hostMove, State.withLength_of_fits hm, State.unlessBusy_of_busy hbusy]
  | writeSrc k b => rw [State.hostMove, withCell_of_lt hm, State.unlessBusy_of_busy hbusy]
  | writeDstLen n | writeStatus b | writeErrPos n | writeDst k b => exact State.hostMove_of_readOnly hm (by simp)
  | read p => exact absurd rfl (hwrite p)

/-- A harmless access is well formed, and no read of `DST`. -/
theorem harmlessTurn_host_iff {p : Params} {m : HostMove} :
    HarmlessTurn p (.host m) ↔ m.WF p ∧ ∀ k, m ≠ .read (.dst k) := by
  cases m with
  | read q => cases q <;> simp
  | _ => simp

/-- A harmless access of the host leaves a busy block as it is: a write is dropped and a read finds its value. -/
theorem State.hostMove_of_harmless {s : State} {m : HostMove} (hbusy : s.status.busy = true)
    (hm : HarmlessTurn s.params (.host m)) : s.hostMove m = .next s := by
  obtain ⟨hwf, hnotDst⟩ := harmlessTurn_host_iff.1 hm
  by_cases hread : ∃ q, m = .read q
  · obtain ⟨q, rfl⟩ := hread
    exact State.hostRead_eq_next hwf fun k hk => absurd (congrArg HostMove.read hk) (hnotDst k)
  · exact State.hostMove_write_of_busy hbusy hwf (not_exists.1 hread)

/-- With none but harmless turns to come, a busy block reaches the core's turn within one step more than there are turns, and
completes with the result of `Exec` on the state it is in now. -/
theorem exists_run_complete_of_busy {s : State} (hp : s.params.WF) (hbusy : s.status.busy = true)
    (hharmless : ∀ x ∈ s.turns, HarmlessTurn s.params x) :
    ∃ k rest, k ≤ s.turns.length + 1 ∧ Sys2Proof.core.run k s =
      .next (({ s with turns := rest } : State).complete (execResult s.cmd s.srcLen s.params.srcCap s.input)) := by
  induction ht : s.turns generalizing s with
  | nil => exact ⟨1, [], Nat.le_refl _, run_succ (step_core_of_busy hp (.inr ⟨ht, rfl⟩) hbusy) 0⟩
  | cons x rest ih =>
    rw [ht] at hharmless
    obtain ⟨hx, hrest⟩ := List.forall_mem_cons.1 hharmless
    cases x with
    | core => exact ⟨1, rest, by simp, run_succ (step_core_of_busy hp (.inl ht) hbusy) 0⟩
    | host m =>
      have hstep : step s = .next { s with turns := rest } :=
        (step_host hp ht).trans (State.hostMove_of_harmless (s := { s with turns := rest }) hbusy hx)
      obtain ⟨k, rest', hk, hrun⟩ := ih (s := { s with turns := rest }) hp hbusy hrest rfl
      exact ⟨k + 1, rest', Nat.succ_le_succ hk, (run_succ hstep k).trans hrun⟩
    | reset => exact hx.elim

/-- Under the invariant the `STATUS` of a busy block is the one that the launch left (10_state.md R15). -/
theorem State.Inv.status_of_busy {s : State} (h : s.Inv) (hbusy : s.status.busy = true) : s.status = statusBusy := by
  have hdone : s.status.done = false := Bool.eq_false_iff.2 fun hd => h.notBusyAndDone ⟨hbusy, hd⟩
  have herr : s.status.err = false := Bool.eq_false_iff.2 fun he => h.notBusyAndDone ⟨hbusy, h.errDone he⟩
  have hcode : s.status.errCode = 0 := not_not.1 fun hc => Bool.eq_false_iff.1 herr (h.errIffCode.2 hc)
  calc s.status = ⟨s.status.busy, s.status.done, s.status.err, s.status.errCode⟩ := rfl
    _ = statusBusy := by rw [hbusy, hdone, herr, hcode]; rfl

end Sys2Proof.Machine
end

section
/-! SETTLED. The statements of the family 70_reset_and_hazards.md. -/

namespace Sys2Proof.Machine

/-- Settles O24: the harmless accesses leave the block as it is, and the core's turn completes the operation. -/
theorem busyBlockCompletesOnItsLaunchState : Obligations.BusyBlockCompletesOnItsLaunchState := by
  intro s hp hbusy hharmless
  obtain ⟨k, rest, hk, hrun⟩ := exists_run_complete_of_busy hp hbusy hharmless
  refine ⟨k, _, hk, hrun, ?_⟩
  cases execResult s.cmd s.srcLen s.params.srcCap s.input with
  | ok out =>
    exact ⟨rfl, rfl, rfl, rfl, rfl, rfl, Memory.read_bytesAt_zero out, rfl, rfl⟩
  | err e pos =>
    exact ⟨rfl, rfl, rfl, rfl, rfl, rfl, Memory.read_nil, rfl, rfl, rfl⟩

/-- Settles O5: the reset's turn makes the reset state, whatever the block was doing, and only the epoch and the turns to come
are not that state's. -/
theorem resetAbandonsTheOperationInFlight : Obligations.ResetAbandonsTheOperationInFlight :=
  fun _ _ hp ht => ⟨_, step_reset hp ht, rfl, rfl⟩

/-- Settles O9: the launch leaves a busy block, and with no turn to come the core's completes it. -/
theorem commandWriteLaunches : Obligations.CommandWriteLaunches := by
  intro s c rest hp ht
  split
  next hbusy =>
    exact (step_host hp ht).trans
      (State.hostMove_write_of_busy (s := { s with turns := rest }) (m := .writeCmd c) hbusy trivial nofun)
  next hidle =>
    refine ⟨_, step_writeCmd_of_idle hp (Bool.eq_false_iff.2 hidle) ht,
      rfl, rfl, rfl, rfl, Memory.read_nil, rfl, rfl, rfl, rfl, ?_⟩
    exact ⟨_, step_core_of_busy hp (.inr ⟨rfl, rfl⟩) rfl, State.complete_ends _ _⟩

/-- Settles O17: a write to a busy block is dropped, and so is one of read-only state at any time. -/
theorem hostWritesAreDropped : Obligations.HostWritesAreDropped := by
  intro s m rest hp ht hm hdropped
  rw [step_host hp ht]
  rcases hdropped with ⟨hbusy, hwrite⟩ | hreadOnly
  · exact State.hostMove_write_of_busy (s := { s with turns := rest }) hbusy hm hwrite
  · exact State.hostMove_of_readOnly (s := { s with turns := rest }) hm hreadOnly

/-- Settles O18: O53 gives the fields; `STATUS` is the launch's, and without `DONE` there is no result yet. -/
theorem hostReadsWhileBusy : Obligations.HostReadsWhileBusy := by
  intro s h hbusy
  have hstatus : s.status = statusBusy := h.status_of_busy hbusy
  obtain ⟨hdstLen, herrPos⟩ := h.noResultBeforeDone (by rw [hstatus]; rfl)
  obtain ⟨hcmd, hsrcLen, -, -, -, hsrc, -, -, -⟩ := hostReadsGiveTheFields s h
  refine ⟨?_, congrArg some hdstLen, congrArg some herrPos, hcmd, hsrcLen, hsrc, fun k => ?_⟩
  · rw [State.portValue, hstatus, statusByte_busy]
    rfl
  · rw [← Option.not_isSome_iff_eq_none, Option.isSome_iff_exists, h.exists_portValue_dst_iff, hdstLen]
    exact Nat.not_lt_zero k

/-- Settles O23: the core's turn leaves an idle block as it is. -/
theorem idleCoreTurnChangesNothing : Obligations.IdleCoreTurnChangesNothing := by
  intro s rest hp hcore hidle
  rw [step_core hp hcore, coreTurn_eq, if_neg (Bool.eq_false_iff.1 hidle)]

end Sys2Proof.Machine
end
